-- ==== Sys2Proof/Config.lean ====
section
/-! DEFINITION. What is fixed for the machine: the parameters of 00_scope.md R4 with their constraints (R5), and the one
constant the spec leaves open (92_eei_decisions.md D29). -/

namespace Sys2Proof

/-- The block's tunable parameters (R4). `padNum / padDen` is the exact rational AUTOSCALE_PAD_RATIO. -/
structure Params where
  frameSize       : Nat
  channelCount    : Nat
  bytesPerChannel : Nat
  windowCapacity  : Nat
  yMax            : Nat
  padNum          : Nat
  padDen          : Nat
  minPad          : Nat
  deriving DecidableEq, Repr

/-- The constraints R5 puts on any parameter set (`padNum >= 0` holds of every natural number). -/
abbrev Params.Ok (p : Params) : Prop :=
  p.frameSize = p.channelCount * p.bytesPerChannel ∧ p.bytesPerChannel = 4 ∧
  p.yMax = 2 ^ (8 * p.bytesPerChannel) ∧ 1 ≤ p.windowCapacity ∧ 1 ≤ p.padDen ∧ 1 ≤ p.minPad

namespace Config

abbrev frameSize : Nat := 16
abbrev channelCount : Nat := 4
abbrev windowCapacity : Nat := 20

/-- The values this instance takes (R4). -/
def params : Params where
  frameSize       := frameSize
  channelCount    := channelCount
  bytesPerChannel := 4
  windowCapacity  := windowCapacity
  yMax            := 2 ^ 32
  padNum          := 1
  padDen          := 20
  minPad          := 1

/-- UNINTERPRETED (assumption log 8): one less than OUT_DEPTH, the number of output events the block can hold while the
consumer takes none. D29 leaves it OPEN with `OUT_DEPTH >= 1`; nothing here says which number it is. -/
opaque outSpare : Nat

end Config
end Sys2Proof
end

