-- ==== Sys2Proof/Word.lean ====
section
/-! DEFINITION. The word types of 00_scope.md R7 and the channel index of 30_encoding.md R72. -/

namespace Sys2Proof

/-- `u8` (R7). -/
abbrev Byte := BitVec 8

/-- `u32` (R7). -/
abbrev U32 := BitVec 32

/-- A channel index, `0..CHANNEL_COUNT-1` (R72). -/
abbrev Channel := Fin Config.channelCount

end Sys2Proof
end

