-- ==== Sys2Proof/Machine/State.lean ====
section
/-! DEFINITION. The state of the block as plain data: everything 10_state.md gives it, the two streams it has produced, and
what its environment offers it. -/

namespace Sys2Proof.Machine

/-- The framing state machine's register `s.st` (R20). -/
inductive StreamState where
  | opened
  | reading
  | closed
  | errored
  | cancelled
  deriving DecidableEq, Repr

/-- One decoded reading across the four channels (00_scope.md §6; R100). -/
structure Sample where
  ch0 : U32
  ch1 : U32
  ch2 : U32
  ch3 : U32
  deriving DecidableEq, Repr

/-- The codes of an ERROR event (R83). `cancelledError` is reserved and never sent (R203). -/
inductive ErrCode where
  | frameTooShort
  | sourceError
  | cancelledError
  deriving DecidableEq, Repr

/-- An output event (R80): its O-format bits are `OutEvent.kind` and `OutEvent.data` of Machine/Flags.lean. -/
inductive OutEvent where
  | sample (v : Sample)
  | error (code : ErrCode) (fatal : Bool) (info : Byte)
  deriving DecidableEq, Repr

/-- The status of a response (R85). -/
inductive RspStatus where
  | ok
  | illegalCmd
  | illegalState
  deriving DecidableEq, Repr

/-- The response to one command: its status and the data of its beats, in order (R84). -/
structure Response where
  status : RspStatus
  data   : List (BitVec 40)
  deriving DecidableEq, Repr

/-- The registers that hold the four ring FIFOs (R26), with one `head` and `count` for all channels. The windows
`s.win[c]` are read from them by `RingFifo.window` of Machine/Window.lean. -/
structure RingFifo where
  mem   : Vector (Vector U32 Config.windowCapacity) Config.channelCount
  head  : Fin Config.windowCapacity
  count : Fin (Config.windowCapacity + 1)
  deriving DecidableEq, Repr

/-- What the consumer does with `out_ready` (R71, R244): stop taking events, take one while stopped, take all as they come. -/
inductive ConsumerMove where
  | stop
  | take
  | go
  deriving DecidableEq, Repr

/-- One thing the environment offers the block, raised until it is transferred (R90). -/
inductive Offer where
  /-- The reset input (R230). -/
  | rst
  /-- A word on the control port with its payload (R71, R72, R75). -/
  | command (cmd : BitVec 32) (payload : BitVec 128)
  /-- A beat on the source port (R71, R76). -/
  | beat (beat : BitVec 11)
  /-- A whole transaction-level chunk, possibly empty (R11, R115). -/
  | chunk (bytes : List Byte)
  /-- The consumer's side of the output port (R71, R244). -/
  | consumer (move : ConsumerMove)
  deriving DecidableEq, Repr

/-- The state. The first six fields are the block's; `out` and `rsp` are the streams it has produced, oldest first;
`offers` and `outStall` are its environment's (assumption log 2, 8). -/
structure State where
  /-- R20. -/
  st        : StreamState
  /-- The cancellation token (R22). -/
  cancelReq : Bool
  /-- Bytes not yet cut into a frame, oldest first (R23). -/
  carry     : List Byte
  /-- The ring FIFOs (R26). -/
  ring      : RingFifo
  /-- The sticky programming-error bit (R25). -/
  progErr   : Bool
  /-- The chunk in progress on the source port: `none` for `in_chunk = 0`; `some n` for `in_chunk = 1` (R27), `carry_len`
  having been `n` at the latest observation point of the chunk, its start or its latest frame commit (R60; assumption log 7). -/
  chunkMark : Option Nat
  /-- The output event stream (R33, R61, R244). -/
  out       : List OutEvent
  /-- The responses, in command order (R62). -/
  rsp       : List Response
  /-- What the environment offers, in the order it raises it (R11). -/
  offers    : List Offer
  /-- `none`: the consumer takes each event as it comes; `some n`: it has stopped and has taken the first n (R244). -/
  outStall  : Option Nat
  deriving DecidableEq, Repr

/-- `in_chunk` (R27). -/
def State.inChunk (s : State) : Bool := s.chunkMark.isSome

/-- Why a step cannot be taken. Each is a case in which the spec says that no transfer takes place. -/
inductive Fault where
  /-- Raised by `step` when no offer can be taken: "A model gives the block no step of its own while it waits" (R245, R216).
  SAFE: nothing is claimed of a block that waits. -/
  | waiting
  /-- Raised by the meanings of the source beats and of the transaction-level chunk in a state in which the offer "has no
  step" (R163, R91). SAFE: the offer is not taken; `step` never runs it. -/
  | sourceNotEnabled
  /-- Raised by the meaning of a legal BLOCK while a chunk is in progress, when "BLOCK is held" (R93). SAFE: the offer is
  not taken; `step` never runs it. -/
  | blockHeld
  deriving DecidableEq, Repr

/-- Why an instruction has no meaning. -/
inductive Refusal where
  /-- Raised by `exec` for a table row that has no meaning yet. No arm raises it. SAFE. -/
  | notModelled (mnemonic : String)
  deriving DecidableEq, Repr

/-- Empty ring FIFOs (R33). `mem` is unspecified at reset and unobservable; its zeros are a DESIGN CHOICE (assumption log 5). -/
def RingFifo.reset : RingFifo where
  mem   := Vector.replicate _ (Vector.replicate _ 0)
  head  := 0
  count := 0

/-- The state right after reset (R33), nothing offered, the consumer taking events. -/
def State.reset : State where
  st        := .opened
  cancelReq := false
  carry     := []
  ring      := RingFifo.reset
  progErr   := false
  chunkMark := none
  out       := []
  rsp       := []
  offers    := []
  outStall  := none

end Sys2Proof.Machine
end

