-- ==== Sys2Proof/Machine/Operands.lean ====
section
/-! DEFINITION. The operand forms: the bytes of a BLOCK payload, the little-endian groups of a frame, and the channels of a
sample. -/

namespace Sys2Proof.Machine

/-- The bytes of a BLOCK: byte `k`, for `k < len`, is `payload[8k+7 : 8k]`; the bits above are ignored (R75). -/
def blockBytes (len : BitVec 5) (payload : BitVec 128) : List Byte :=
  (List.range len.toNat).map fun k => payload.extractLsb' (8 * k) 8

/-- `le(v)`: the four bytes of a value, least significant first (R95). -/
def leBytes (v : U32) : List Byte :=
  [v.extractLsb' 0 8, v.extractLsb' 8 8, v.extractLsb' 16 8, v.extractLsb' 24 8]

/-- The value of four bytes, the first the least significant (R51, R100). -/
def leWord (b0 b1 b2 b3 : Byte) : U32 :=
  b0.setWidth 32 ||| (b1.setWidth 32 <<< 8) ||| (b2.setWidth 32 <<< 16) ||| (b3.setWidth 32 <<< 24)

/-- Channel `c` of a sample (R81). -/
def Sample.ch (v : Sample) (c : Channel) : U32 :=
  match c with
  | 0 => v.ch0
  | 1 => v.ch1
  | 2 => v.ch2
  | 3 => v.ch3

/-- The 16 bytes of a frame that carries a sample (R95, `frame`). -/
def Sample.bytes (v : Sample) : List Byte :=
  leBytes v.ch0 ++ leBytes v.ch1 ++ leBytes v.ch2 ++ leBytes v.ch3

end Sys2Proof.Machine
end

