-- ==== Sys2Proof/Machine/Codec.lean ====
section
/-! DEFINITION. The frame decoder, PacketCodec (40_codec.md). -/

namespace Sys2Proof.Machine

/-- The value of channel group `i` of a frame: its bytes `4i .. 4i+3`, little-endian (R101). The default of `getD` is read
only past the end of a frame, which no caller asks for: Decode rejects a short block first (R102). -/
def frameWord (blk : List Byte) (i : Nat) : U32 :=
  leWord (blk.getD (4 * i) 0) (blk.getD (4 * i + 1) 0) (blk.getD (4 * i + 2) 0) (blk.getD (4 * i + 3) 0)

/-- Decode (R100): the sample of a block, or, for a short block, its length, the `n` of `FrameTooShort(n)` (R102).
A block longer than a frame never comes here (R102); its first 16 bytes would be decoded (assumption log 14). -/
def decodeFrame (blk : List Byte) : Except Nat Sample :=
  if blk.length < Config.frameSize then .error blk.length
  else .ok ⟨frameWord blk 0, frameWord blk 1, frameWord blk 2, frameWord blk 3⟩

end Sys2Proof.Machine
end

