-- ==== Sys2Proof/Machine/Feed.lean ====
section
/-! DEFINITION. The frame assembler's Feed (41_assembler.md R110). -/

namespace Sys2Proof.Machine

/-- The loop of Feed: cut leading frames of `size` bytes off `buf` while it holds that many. `fuel` bounds the number of
rounds; `buf.length` rounds are enough for every `size >= 1`. -/
def cutFrames (size : Nat) : Nat → List Byte → List (List Byte) × List Byte
  | 0, buf => ([], buf)
  | fuel + 1, buf =>
    if size ≤ buf.length then
      let r := cutFrames size fuel (buf.drop size)
      (buf.take size :: r.1, r.2)
    else ([], buf)

/-- `Feed(carry, chunk)`: the complete frames, in order, and the bytes left over (R110). -/
def feed (carry chunk : List Byte) : List (List Byte) × List Byte :=
  cutFrames Config.frameSize (carry ++ chunk).length (carry ++ chunk)

/-- Several chunks fed one after another (R113): all the frames, in order, and the carry at the end. -/
def feedMany (carry : List Byte) : List (List Byte) → List (List Byte) × List Byte
  | [] => ([], carry)
  | c :: cs =>
    let r := feedMany (feed carry c).2 cs
    ((feed carry c).1 ++ r.1, r.2)

end Sys2Proof.Machine
end

