-- ==== Sys2Proof/Machine/Window.lean ====
section
/-! DEFINITION. The per-channel ring FIFOs (42_window.md; 10_state.md R24, R26): Push and Snapshot on an abstract window,
and the registers that realise the windows. -/

namespace Sys2Proof.Machine

/-- `Push` on one window of capacity `cap`: append, and evict the oldest value if the window is now too long (R120). -/
def push (cap : Nat) (w : List U32) (v : U32) : List U32 :=
  if cap < (w ++ [v]).length then (w ++ [v]).drop 1 else w ++ [v]

/-- `Snapshot(w)`: exactly `cap` entries, position `i` counted from the oldest; absent past the window's length (R124). -/
def snapshotOf (cap : Nat) (w : List U32) : List (Option U32) :=
  (List.range cap).map fun i => w[i]?

/-- Where `i` places past `head` stands in the storage array (R26: modulo CAP). -/
def RingFifo.slot (r : RingFifo) (i : Nat) : Fin Config.windowCapacity :=
  ⟨(r.head.val + i) % Config.windowCapacity, Nat.mod_lt _ (by decide)⟩

/-- The window of a channel: `[mem[c][(head + i) mod CAP] for i in 0..count-1]` (R26). -/
def RingFifo.window (r : RingFifo) (c : Channel) : List U32 :=
  (List.range r.count.val).map fun i => (r.mem.get c).get (r.slot i)

/-- One value per channel into the same slot. -/
def RingFifo.store (r : RingFifo) (k : Fin Config.windowCapacity) (v : Sample) :
    Vector (Vector U32 Config.windowCapacity) Config.channelCount :=
  Vector.ofFn fun c => (r.mem.get c).set k (v.ch c)

/-- The pushes of one frame commit on the registers: every channel uses the same `head` and `count`, which are updated
once (R122). -/
def RingFifo.commit (r : RingFifo) (v : Sample) : RingFifo :=
  if h : r.count.val < Config.windowCapacity then
    { r with mem := r.store (r.slot r.count.val) v, count := ⟨r.count.val + 1, Nat.succ_lt_succ h⟩ }
  else
    { r with mem := r.store r.head v, head := r.slot 1 }

/-- `s.win[c]` (R24), read from the registers that hold it. -/
def State.win (s : State) (c : Channel) : List U32 := s.ring.window c

end Sys2Proof.Machine
end

