-- ==== Sys2Proof/Machine/Flags.lean ====
section
/-! DEFINITION. The flags (10_state.md R34) and the words in which the block shows its state: the STATUS word, the present
bit of a snapshot entry, the O format with its `fatal` bit, and the beats of the R format (30_encoding.md R80 to R88). -/

namespace Sys2Proof.Machine

/-- The number of a stream state (R20). -/
def StreamState.code : StreamState → BitVec 3
  | .opened    => 0
  | .reading   => 1
  | .closed    => 2
  | .errored   => 3
  | .cancelled => 4

/-- CLOSED, ERRORED and CANCELLED (R21). -/
def StreamState.terminal : StreamState → Bool
  | .opened    => false
  | .reading   => false
  | .closed    => true
  | .errored   => true
  | .cancelled => true

/-- R83. -/
def ErrCode.code : ErrCode → BitVec 4
  | .frameTooShort  => 1
  | .sourceError    => 2
  | .cancelledError => 3

/-- `out_kind` (R80). -/
def OutEvent.kind : OutEvent → BitVec 2
  | .sample _    => 1
  | .error _ _ _ => 2

/-- `out_data`: a sample's channels, channel 0 lowest (R81), or an error's `code`, `fatal` and `info` (R82). -/
def OutEvent.data : OutEvent → BitVec 128
  | .sample v => v.ch3 ++ v.ch2 ++ v.ch1 ++ v.ch0
  | .error code fatal info => (0#115 ++ info ++ BitVec.ofBool fatal ++ code.code : BitVec 128)

/-- `rsp_status` (R85). -/
def RspStatus.code : RspStatus → BitVec 2
  | .ok           => 0
  | .illegalCmd   => 1
  | .illegalState => 2

/-- One beat on the response port (R84). -/
structure RspBeat where
  status : BitVec 2
  data   : BitVec 40
  last   : Bool
  deriving DecidableEq, Repr

/-- The beats of a response: one status for all, `last` on the final beat only (R84). -/
def Response.beats (r : Response) : List RspBeat :=
  r.data.mapIdx fun i d => ⟨r.status.code, d, i + 1 == r.data.length⟩

/-- The window length `s.wlen` (R31). -/
def State.wlen (s : State) : Nat := (s.win 0).length

/-- `carry_len` as STATUS shows it: `len(s.carry)` between chunks (R86), and inside a chunk its value at the query's observation
point, the chunk's latest frame commit or, before the first, the chunk's start (20_memory.md R60). -/
def State.carryShown (s : State) : Nat := s.chunkMark.getD s.carry.length

/-- The STATUS word in `rsp_data[31:0]`, with `rsp_data[39:32] = 0` (R86). -/
def State.statusWord (s : State) : BitVec 40 :=
  0#26 ++ BitVec.ofNat 5 s.wlen ++ BitVec.ofBool s.progErr ++ BitVec.ofBool s.cancelReq ++
    BitVec.ofNat 4 s.carryShown ++ s.st.code

/-- A SNAPSHOT entry: the present bit at bit 32 and the value below it; an absent entry is 0 (R87). -/
def entryWord : Option U32 → BitVec 40
  | some v => 0#7 ++ 1#1 ++ v
  | none   => 0

/-- A RANGE bound: 37 bits, the three bits above them 0 (R88). -/
def boundWord (q : Int) : BitVec 40 := (BitVec.ofInt 37 q).setWidth 40

end Sys2Proof.Machine
end

