-- ==== Sys2Proof/Machine/Ops.lean ====
section
/-! DEFINITION. The operations the meanings share: the primitives of 00_scope.md R9, the frame commit and loop top of
44_controller.md, and the two ways an error is taken (60_exceptions.md). The block has no traps (R208): a refusal and the
fatal error path stand where another machine has exception entry, and there is no return from either (R209). -/

namespace Sys2Proof.Machine

/-- `emit(e)`: append an event to the output stream (R9, R80). -/
def emit (e : OutEvent) (s : State) : State := { s with out := s.out ++ [e] }

/-- `respond(status, beats)` (R9, R84). -/
def respond (status : RspStatus) (data : List (BitVec 40)) (s : State) : State :=
  { s with rsp := s.rsp ++ [⟨status, data⟩] }

/-- `refuse(status)`: respond with one beat of 0 and record the programming error; nothing else changes (R9, R204, R205). -/
def refuse (status : RspStatus) (s : State) : State :=
  respond status [0] { s with progErr := true }

/-- The fatal error path EnterErrored: exactly one ERROR event, then ERRORED (R176, R202). -/
def enterErrored (cause : Byte) (s : State) : State :=
  { emit (.error .sourceError true cause) s with st := .errored }

/-- Loop top: the read loop checks the cancellation token (R162). -/
def loopTop (s : State) : State :=
  if s.st = .reading ∧ s.cancelReq = true then { s with st := .cancelled } else s

/-- The frame commit, ProcessBlock: decode, push every channel, emit; a short block is only reported (R161, R201). -/
def processBlock (s : State) (blk : List Byte) : State :=
  match decodeFrame blk with
  | .error n => emit (.error .frameTooShort false (BitVec.ofNat 8 n)) s
  | .ok v => emit (.sample v) { s with ring := s.ring.commit v }

/-- Feed a chunk to the assembler and commit every frame it completes, in order (R167, R91). -/
def feedChunk (chunk : List Byte) (s : State) : State :=
  (feed s.carry chunk).1.foldl processBlock { s with carry := (feed s.carry chunk).2 }

/-- `carry_len` at the latest observation point once a chunk's next byte `b` is fed: a frame commit makes a new one, and
before the chunk's first it is the chunk's start (R60). -/
def markAfter (b : Byte) (s : State) : Nat :=
  match (feed s.carry [b]).1 with
  | [] => s.carryShown
  | _ => (feed s.carry [b]).2.length

/-- The end of a chunk: `in_chunk <- 0`, then loop top (R91). -/
def endChunk (s : State) : State := loopTop { s with chunkMark := none }

/-- What an EOS, ERR or RSVD beat does to a chunk in progress: it ends it (R93). -/
def endOpenChunk (s : State) : State := if s.inChunk then endChunk s else s

/-- Whether a source event has a step: the block is READING (R163), and it is not about to cancel between chunks (R91). -/
def State.srcEnabled (s : State) : Bool :=
  s.st == .reading && (s.inChunk || !s.cancelReq)

end Sys2Proof.Machine
end

