-- ==== Sys2Proof/Machine/HostCommands.lean ====
section
/-! DEFINITION. The host commands of 44_controller.md: START, CANCEL, STATUS, BLOCK. -/

namespace Sys2Proof.Machine

/-- START (R164, R174, R234). -/
def execStart (s : State) : Host.Outcome State Fault Refusal :=
  if s.st ≠ .opened then .next (refuse .illegalState s)
  else .next (respond .ok [0] (loopTop { s with st := .reading }))

/-- CANCEL (R165): while waiting it aborts the pull at once; inside a chunk it is left to the loop top at the chunk's end. -/
def execCancel (s : State) : Host.Outcome State Fault Refusal :=
  if s.st = .reading ∧ s.inChunk = false then
    .next (respond .ok [0] { s with cancelReq := true, st := .cancelled })
  else .next (respond .ok [0] { s with cancelReq := true })

/-- STATUS (R166). -/
def execStatus (s : State) : Host.Outcome State Fault Refusal :=
  .next (respond .ok [s.statusWord] s)

/-- BLOCK (R172), its checks in the order of R89; held while a chunk is in progress (R93). -/
def execBlock (len : BitVec 5) (payload : BitVec 128) (s : State) : Host.Outcome State Fault Refusal :=
  if Config.frameSize < len.toNat then .next (refuse .illegalCmd s)
  else if s.inChunk then .fault .blockHeld
  else if s.st ≠ .reading then .next (refuse .illegalState s)
  else .next (respond .ok [0] (loopTop (processBlock s (blockBytes len payload))))

end Sys2Proof.Machine
end

