-- ==== Sys2Proof/Machine/Autoscale.lean ====
section
/-! DEFINITION. The autoscale min/max reducer (43_autoscale.md), exact on Int. -/

namespace Sys2Proof.Machine

/-- `clamp(x, lo, hi) = max(lo, min(x, hi))` (00_scope.md R7). -/
def clamp (x lo hi : Int) : Int := max lo (min x hi)

/-- The least of a non-empty list of values (R142). -/
def leastOf (x : U32) (xs : List U32) : Int := xs.foldl (fun m v => min m (v.toNat : Int)) (x.toNat : Int)

/-- The greatest of a non-empty list of values (R142). -/
def greatestOf (x : U32) (xs : List U32) : Int := xs.foldl (fun m v => max m (v.toNat : Int)) (x.toNat : Int)

/-- `YQ`, the upper end of every display range in q-units (R141). -/
def Params.topQ (p : Params) : Int := p.padDen * p.yMax

/-- The pad in q-units: `PN * (mx - mn)`, and `PD * AUTOSCALE_MIN_PAD` where that is 0 (R141, R143). -/
def padQ (p : Params) (mn mx : Int) : Int :=
  if (p.padNum : Int) * (mx - mn) = 0 then p.padDen * p.minPad else p.padNum * (mx - mn)

/-- `Range(w, en)`: the two bounds of the display range in q-units (R141). -/
def rangeOf (p : Params) (w : List U32) (en : Bool) : Int × Int :=
  match en, w with
  | false, _ => (0, Params.topQ p)
  | true, [] => (0, Params.topQ p)
  | true, x :: xs =>
    let mn := leastOf x xs
    let mx := greatestOf x xs
    (clamp (p.padDen * mn - padQ p mn mx) 0 (Params.topQ p), clamp (p.padDen * mx + padQ p mn mx) 0 (Params.topQ p))

end Sys2Proof.Machine
end

