-- ==== Sys2Proof/Machine/Queries.lean ====
section
/-! DEFINITION. The window queries: SNAPSHOT (42_window.md) and RANGE (43_autoscale.md). -/

namespace Sys2Proof.Machine

/-- SNAPSHOT (R123): the window as it is now, in CAP entries; legal in every state. -/
def execSnapshot (ch : Channel) (s : State) : Host.Outcome State Fault Refusal :=
  .next (respond .ok ((snapshotOf Config.windowCapacity (s.win ch)).map entryWord) s)

/-- RANGE (R140): the two bounds of the window's display range; legal in every state. -/
def execRange (ch : Channel) (en : Bool) (s : State) : Host.Outcome State Fault Refusal :=
  .next (respond .ok
    [boundWord (rangeOf Config.params (s.win ch) en).1, boundWord (rangeOf Config.params (s.win ch) en).2] s)

end Sys2Proof.Machine
end

