-- ==== Sys2Proof/Machine/SourceEvents.lean ====
section
/-! DEFINITION. The source events of 44_controller.md, beat by beat (30_encoding.md R91, R93), and the whole chunk as one
transaction-level event (R167). An event that has no step in a state stops there (R163; assumption log 3). -/

namespace Sys2Proof.Machine

/-- DATA, one beat of a chunk: its byte is fed and a frame it completes is committed at once; the beat with `last` ends
the chunk (R91, R167). -/
def execData (last : Bool) (b : Byte) (s : State) : Host.Outcome State Fault Refusal :=
  if s.srcEnabled then
    if last then .next (endChunk (feedChunk [b] s))
    else .next { feedChunk [b] s with chunkMark := some (markAfter b s) }
  else .fault .sourceNotEnabled

/-- A beat that ends the stream with `effect`. A chunk in progress ends first, and if that cancels, the beat is not
accepted (R93). -/
def endStream (effect : State → State) (s : State) : Host.Outcome State Fault Refusal :=
  if s.srcEnabled then
    if (endOpenChunk s).st = .reading then .next (effect (endOpenChunk s)) else .next (endOpenChunk s)
  else .fault .sourceNotEnabled

/-- EOS (R168): CLOSED, with no event; bytes left in the carry stay there (R247). -/
def execEos (s : State) : Host.Outcome State Fault Refusal :=
  endStream (fun u => { u with st := .closed }) s

/-- ERR (R169). -/
def execErr (cause : Byte) (s : State) : Host.Outcome State Fault Refusal :=
  endStream (enterErrored cause) s

/-- SRC_RSVD, the reserved source kind: a source that has failed (R170, R79). -/
def execSrcRsvd (cause : Byte) (s : State) : Host.Outcome State Fault Refusal :=
  endStream (enterErrored cause) s

/-- CHUNK, the transaction-level event: any number of bytes, 0 included (R167, R115). It comes only between chunks, as
`in_chunk` is 0 between transaction-level steps (R27). -/
def execChunk (bytes : List Byte) (s : State) : Host.Outcome State Fault Refusal :=
  if s.srcEnabled && !s.inChunk then .next (loopTop (feedChunk bytes s))
  else .fault .sourceNotEnabled

end Sys2Proof.Machine
end

