-- ==== Sys2Proof/Syntax.lean ====
section
/-! DEFINITION. The instructions: one constructor per row of spec/opcode_table.json. -/

namespace Sys2Proof

/-- What the block can be given on its two input ports: the six host commands (format C, 30_encoding.md R73) and the four
kinds of source beat (format S, R77). -/
inductive Instr where
  /-- START (R164). -/
  | start
  /-- CANCEL (R165). -/
  | cancel
  /-- SNAPSHOT of one channel (R123). -/
  | snapshot (ch : Channel)
  /-- RANGE of one channel, with the autoscale-enable operand (R140). -/
  | range (ch : Channel) (en : Bool)
  /-- STATUS (R166). -/
  | status
  /-- BLOCK with the length field of the command word and the payload word of format P (R172, R75). -/
  | block (len : BitVec 5) (payload : BitVec 128)
  /-- DATA: one beat of a chunk; `last` on the chunk's final byte (R76, R78). -/
  | data (last : Bool) (data : Byte)
  /-- EOS (R168). -/
  | eos
  /-- ERR with the source's cause (R169). -/
  | err (cause : Byte)
  /-- SRC_RSVD: the reserved source kind, with its cause (R170). -/
  | srcRsvd (cause : Byte)
  deriving DecidableEq, Repr

/-- The words of an instruction as they stand on the block's ports: a command word with its payload (formats C and P),
or a source beat (format S) (30_encoding.md R70). -/
inductive PortWord where
  | control (cmd : BitVec 32) (payload : BitVec 128)
  | source (beat : BitVec 11)
  deriving DecidableEq, Repr

end Sys2Proof
end

