-- ==== Sys2Proof/Machine/Dispatch.lean ====
section
/-! DEFINITION. The meaning of every instruction, one arm per constructor of Instr. -/

namespace Sys2Proof.Machine

def exec (i : Instr) (s : State) : Host.Outcome State Fault Refusal :=
  match i with
  | .start => Sys2Proof.Machine.execStart s
  | .cancel => Sys2Proof.Machine.execCancel s
  | .snapshot ch => Sys2Proof.Machine.execSnapshot ch s
  | .range ch en => Sys2Proof.Machine.execRange ch en s
  | .status => Sys2Proof.Machine.execStatus s
  | .block len payload => Sys2Proof.Machine.execBlock len payload s
  | .data last b => Sys2Proof.Machine.execData last b s
  | .eos => Sys2Proof.Machine.execEos s
  | .err cause => Sys2Proof.Machine.execErr cause s
  | .srcRsvd cause => Sys2Proof.Machine.execSrcRsvd cause s

end Sys2Proof.Machine
end

