-- ==== Sys2Proof/WellFormed.lean ====
section
/-! DEFINITION. Which instructions have an encoding that the block accepts (30_encoding.md R74). -/

namespace Sys2Proof

/-- R74 (d): a BLOCK's length is at most FRAME_SIZE. The other checks of R74 are about bits that an `Instr` has no room
for: a channel index is below CHANNEL_COUNT by its type (e), and reserved bits are no operand (a, b, c). -/
def Instr.wellFormed : Instr → Bool
  | .start         => true
  | .cancel        => true
  | .snapshot _    => true
  | .range _ _     => true
  | .status        => true
  | .block len _   => decide (len.toNat ≤ Config.frameSize)
  | .data _ _      => true
  | .eos           => true
  | .err _         => true
  | .srcRsvd _     => true

abbrev Instr.WellFormed (i : Instr) : Prop := i.wellFormed = true

end Sys2Proof
end

