-- ==== Sys2Proof/Decode.lean ====
section
/-! DEFINITION. The decoder of both input ports, total on every word and rejecting by name (30_encoding.md R72 to R79, R89),
and after it the encoder, written from the same tables. -/

namespace Sys2Proof

/-- Why a command word is illegal, in the letters of R74. The block reports all of them as ILLEGAL_CMD (R204); the names
are the model's (assumption log 12). -/
inductive IllegalCmd where
  /-- (a) `op` is 0 or 7 to 15. -/
  | reservedOp
  /-- (b) bits [31:12] are not 0. -/
  | rsvdNonzero
  /-- (c) a field the op does not use is not 0. -/
  | unusedField
  /-- (d) BLOCK with `len > FRAME_SIZE`. -/
  | blockTooLong
  /-- (e) `ch >= CHANNEL_COUNT`, which no word reaches at the default four channels. -/
  | noSuchChannel
  deriving DecidableEq, Repr

/-- The fields of a command word (R72). -/
structure CmdFields where
  op   : BitVec 4
  ch   : BitVec 2
  en   : BitVec 1
  len  : BitVec 5
  rsvd : BitVec 20
  deriving DecidableEq, Repr

def cmdFields (cmd : BitVec 32) : CmdFields where
  op   := cmd.extractLsb' 0 4
  ch   := cmd.extractLsb' 4 2
  en   := cmd.extractLsb' 6 1
  len  := cmd.extractLsb' 7 5
  rsvd := cmd.extractLsb' 12 20

/-- R74 (e). -/
def channelOf (ch : BitVec 2) : Except IllegalCmd Channel :=
  if h : ch.toNat < Config.channelCount then .ok ⟨ch.toNat, h⟩ else .error .noSuchChannel

/-- The command an `op` with these fields stands for, by the "fields used" column of R73 and the checks of R74. -/
def decodeFields (f : CmdFields) (payload : BitVec 128) : Except IllegalCmd Instr :=
  match f.op.toNat with
  | 1 => if f.ch = 0 ∧ f.en = 0 ∧ f.len = 0 then .ok .start else .error .unusedField
  | 2 => if f.ch = 0 ∧ f.en = 0 ∧ f.len = 0 then .ok .cancel else .error .unusedField
  | 3 =>
    if f.en = 0 ∧ f.len = 0 then
      match channelOf f.ch with
      | .ok ch => .ok (.snapshot ch)
      | .error e => .error e
    else .error .unusedField
  | 4 =>
    if f.len = 0 then
      match channelOf f.ch with
      | .ok ch => .ok (.range ch (f.en == 1))
      | .error e => .error e
    else .error .unusedField
  | 5 => if f.ch = 0 ∧ f.en = 0 ∧ f.len = 0 then .ok .status else .error .unusedField
  | 6 =>
    if f.ch = 0 ∧ f.en = 0 then
      if f.len.toNat ≤ Config.frameSize then .ok (.block f.len payload) else .error .blockTooLong
    else .error .unusedField
  | _ => .error .reservedOp

/-- The command a word on the control port stands for, with the payload sampled in the same transfer (R72 to R75). -/
def decodeCommand (cmd : BitVec 32) (payload : BitVec 128) : Except IllegalCmd Instr :=
  if (cmdFields cmd).rsvd ≠ 0 then .error .rsvdNonzero else decodeFields (cmdFields cmd) payload

/-- The event a beat on the source port stands for (R76, R77): every beat is one. -/
def decodeBeat (beat : BitVec 11) : Instr :=
  match (beat.extractLsb' 9 2).toNat with
  | 0 => .data (beat.extractLsb' 8 1 == 1) (beat.extractLsb' 0 8)
  | 1 => .eos
  | 2 => .err (beat.extractLsb' 0 8)
  | _ => .srcRsvd (beat.extractLsb' 0 8)

/-- The instruction the words on a port stand for. -/
def decode : PortWord → Except IllegalCmd Instr
  | .control cmd payload => decodeCommand cmd payload
  | .source beat => .ok (decodeBeat beat)

/-- An instruction of the opcode table by its bits, as the table numbers them: 32 bits are a command word (with a payload
of zeros, bits the table gives no place), and 16 bits hold the 11 bits of a source beat (assumption log 11). -/
def decodeTableWord (nbits w : Nat) : Option Instr :=
  if nbits ≤ 16 then
    if w < 2 ^ 11 then some (decodeBeat (BitVec.ofNat 11 w)) else none
  else if w < 2 ^ 32 then
    match decodeCommand (BitVec.ofNat 32 w) 0 with
    | .ok i => some i
    | .error _ => none
  else none

/-- A command word with its reserved bits 0: `op + 16*ch + 64*en + 128*len` (R72, R73). -/
def cmdWord (op : BitVec 4) (ch : BitVec 2) (en : BitVec 1) (len : BitVec 5) : BitVec 32 :=
  BitVec.ofNat 32 (op.toNat + 16 * ch.toNat + 64 * en.toNat + 128 * len.toNat)

/-- A source beat: `data + 0x100*last + 0x200*kind` (R76). -/
def srcBeat (kind : BitVec 2) (last : BitVec 1) (data : Byte) : BitVec 11 :=
  BitVec.ofNat 11 (data.toNat + 256 * last.toNat + 512 * kind.toNat)

def channelBits (ch : Channel) : BitVec 2 := BitVec.ofNat 2 ch.val

def bit (b : Bool) : BitVec 1 := BitVec.ofBool b

/-- The words of an instruction (R73, R77), unused fields and unused payloads 0. -/
def encode : Instr → PortWord
  | .start             => .control (cmdWord 1 0 0 0) 0
  | .cancel            => .control (cmdWord 2 0 0 0) 0
  | .snapshot ch       => .control (cmdWord 3 (channelBits ch) 0 0) 0
  | .range ch en       => .control (cmdWord 4 (channelBits ch) (bit en) 0) 0
  | .status            => .control (cmdWord 5 0 0 0) 0
  | .block len payload => .control (cmdWord 6 0 0 len) payload
  | .data last data    => .source (srcBeat 0 (bit last) data)
  | .eos               => .source (srcBeat 1 0 0)
  | .err cause         => .source (srcBeat 2 0 cause)
  | .srcRsvd cause     => .source (srcBeat 3 0 cause)

/-- The beats of a chunk, `last` on its final byte only (R78); none for the empty chunk, which cannot be sent. -/
def chunkBeats : List Byte → List (BitVec 11)
  | [] => []
  | [b] => [srcBeat 0 1 b]
  | b :: bs => srcBeat 0 0 b :: chunkBeats bs

end Sys2Proof
end

