-- ==== Sys2Proof/Machine/Ports.lean ====
section
/-! DEFINITION. The block's ports (30_encoding.md R71, R90 to R93): which offer a step takes, what a taken offer is, and how
a word is placed where the next step takes it. -/

namespace Sys2Proof.Machine

/-- How many output events the block holds that the consumer has not taken: none while it takes them as they come (R244). -/
def State.outHeld (s : State) : Nat :=
  match s.outStall with
  | none => 0
  | some taken => s.out.length - taken

/-- The block cannot take another event onto its output: OUT_DEPTH events are held (R91, D29; assumption log 8). -/
def State.outFull (s : State) : Bool :=
  decide (s.outHeld ≠ 0) && decide (Config.outSpare < s.outHeld)

/-- `src_ready` (R91). -/
def State.srcReady (s : State) : Bool := s.srcEnabled && !s.outFull

/-- `ctl_ready` for an offered command word: 0 only for a legal BLOCK, while a chunk is in progress (R93) or the output is
full (R244). -/
def State.ctlReady (s : State) (cmd : BitVec 32) : Bool :=
  match decodeCommand cmd 0 with
  | .ok (.block _ _) => !s.inChunk && !s.outFull
  | _ => true

/-- Whether a beat that a ready source port is offered is accepted: an EOS, ERR or RSVD beat whose arrival ends a chunk that
cancels is not (R93). -/
def State.acceptsBeat (s : State) (i : Instr) : Bool :=
  match i with
  | .data _ _ => true
  | _ => (endOpenChunk s).st == .reading

/-- Whether an offer can be taken now. `ctlWaits` and `srcWaits` say that an earlier offer on the control or the source
port still stands there: a port transfers its words in order (R90). An EOS, ERR or RSVD beat that would end a chunk (R93)
waits too while the output is full (R91), and with it a cancellation that waits for that end: DESIGN CHOICE, assumption
log 18. -/
def State.canTake (s : State) (ctlWaits srcWaits : Bool) : Offer → Bool
  | .rst           => true
  | .command cmd _ => !ctlWaits && s.ctlReady cmd
  | .beat _        => !srcWaits && s.srcReady
  | .chunk _       => !srcWaits && s.srcReady && !s.inChunk
  | .consumer _    => true

def Offer.onControl : Offer → Bool
  | .rst         => false
  | .command _ _ => true
  | .beat _      => false
  | .chunk _     => false
  | .consumer _  => false

def Offer.onSource : Offer → Bool
  | .rst         => false
  | .command _ _ => false
  | .beat _      => true
  | .chunk _     => true
  | .consumer _  => false

/-- The first offer, in the order the environment raises them, that can be taken, and the offers that then still stand.
An offer that cannot be taken keeps its port waiting and nothing else (R90, R163; assumption log 2). -/
def State.select (s : State) : Bool → Bool → List Offer → Option (Offer × List Offer)
  | _, _, [] => none
  | ctlWaits, srcWaits, o :: os =>
    if s.canTake ctlWaits srcWaits o then some (o, os)
    else
      match s.select (ctlWaits || o.onControl) (srcWaits || o.onSource) os with
      | some (p, rest) => some (p, o :: rest)
      | none => none

/-- The offer the next step takes, if there is one. -/
def State.nextOffer (s : State) : Option (Offer × List Offer) := s.select false false s.offers

/-- RESET: every field at its reset value, from any state (R230); what the environment offers and whether the consumer
takes events are not the block's (assumption log 9). -/
def resetBlock (s : State) : State :=
  { State.reset with offers := s.offers, outStall := s.outStall.map fun _ => 0 }

/-- The consumer's move on the output port (R71, R244). -/
def consume (m : ConsumerMove) (s : State) : State :=
  match m with
  | .stop => { s with outStall := some (s.outStall.getD s.out.length) }
  | .take => { s with outStall := s.outStall.map fun n => min (n + 1) s.out.length }
  | .go   => { s with outStall := none }

/-- The offers of a cycle in which the host offers a command word and the source a beat: the control port first (R92). -/
def sameCycle (cmd : BitVec 32) (payload : BitVec 128) (beat : BitVec 11) : List Offer :=
  [.command cmd payload, .beat beat]

/-- The offers that deliver a chunk beat by beat (R78). -/
def chunkOffers (bytes : List Byte) : List Offer := (chunkBeats bytes).map .beat

/-- A state whose source port is ready: `s` itself where it is, else READING, with no cancellation that holds the port and
a consumer that takes events. -/
def State.withSourceReady (s : State) : State :=
  if s.srcReady then s
  else { s with st := .reading, cancelReq := s.inChunk && s.cancelReq, outStall := none }

/-- A state whose control port is ready for a command word: `s` itself where it is, else between chunks, with a consumer
that takes events. -/
def State.withControlReady (s : State) (cmd : BitVec 32) : State :=
  if s.ctlReady cmd then s else { s with chunkMark := none, outStall := none }

/-- A word of the opcode table offered as the first offer, on a port that is ready for it (assumption log 4). -/
def placeWord (s : State) (nbits w : Nat) : State :=
  if nbits ≤ 16 then
    { s.withSourceReady with offers := .beat (BitVec.ofNat 11 w) :: s.offers }
  else
    { s.withControlReady (BitVec.ofNat 32 w) with offers := .command (BitVec.ofNat 32 w) 0 :: s.offers }

end Sys2Proof.Machine
end

