-- ==== Sys2Proof/Machine/Take.lean ====
section
/-! DEFINITION. What taking an offer does: a command word in the order of checks of 30_encoding.md R89, a source beat (R77),
a transaction-level chunk, reset, a move of the consumer. -/

namespace Sys2Proof.Machine

/-- A command word and its payload: illegal words are refused before anything else is looked at (R89, R204). -/
def takeCommand (cmd : BitVec 32) (payload : BitVec 128) (s : State) : Host.Outcome State Fault Refusal :=
  match decodeCommand cmd payload with
  | .ok i => exec i s
  | .error _ => .next (refuse .illegalCmd s)

/-- A source beat, `rest` being the offers without it: a beat that is not accepted stays offered (R93). -/
def takeBeat (b : BitVec 11) (rest : List Offer) (s : State) : Host.Outcome State Fault Refusal :=
  if s.acceptsBeat (decodeBeat b) then exec (decodeBeat b) { s with offers := rest } else exec (decodeBeat b) s

/-- Take one offer, `rest` being the offers that stand without it. -/
def takeOffer (o : Offer) (rest : List Offer) (s : State) : Host.Outcome State Fault Refusal :=
  match o with
  | .rst => .next (resetBlock { s with offers := rest })
  | .command cmd payload => takeCommand cmd payload { s with offers := rest }
  | .beat b => takeBeat b rest s
  | .chunk bytes => execChunk bytes { s with offers := rest }
  | .consumer m => .next (consume m { s with offers := rest })

end Sys2Proof.Machine
end

