-- ==== Sys2Proof/Machine/Step.lean ====
section
/-! DEFINITION. One step of the block: it takes one offer and processes it atomically (00_scope.md R11). -/

namespace Sys2Proof.Machine

/-- One step. With no offer it can take, the block waits and has no step (R245). -/
def step (s : State) : Host.Outcome State Fault Refusal :=
  match s.nextOffer with
  | some (o, rest) => takeOffer o rest s
  | none => .fault .waiting

/-- `s` with an instruction of the opcode table where the next step takes it. -/
def State.withFetchWord (s : State) (nbits w : Nat) : State := placeWord s nbits w

end Sys2Proof.Machine
end

