-- ==== Sys2Proof/Machine/Listing.lean ====
section
/-! DEFINITION. The textual syntax (30_encoding.md R94) and its pseudo-instructions (R95), as a translation of a listing to
the offers it stands for, in line order. What R94 leaves open about white space and letter case is in assumption log 13. -/

namespace Sys2Proof.Machine

/-- A statement of the textual syntax. -/
inductive Stmt where
  | start
  | cancel
  | snapshot (ch : Channel)
  | range (ch : Channel) (on : Bool)
  | status
  | block (bytes : List Byte)
  | chunk (bytes : List Byte)
  | eos
  | srcerr (cause : Byte)
  | frame (v : Sample)
  | block16 (v : Sample)
  deriving DecidableEq, Repr

/-- A payload word whose byte `k` is the `k`-th listed byte (R94, R75). -/
def packBytes : List Byte → BitVec 128
  | [] => 0
  | b :: bs => (packBytes bs <<< 8) ||| b.setWidth 128

/-- BLOCK with exactly the listed bytes (R94). -/
def blockInstr (bytes : List Byte) : Instr := .block (BitVec.ofNat 5 bytes.length) (packBytes bytes)

/-- The words of an instruction, offered on their port. -/
def offerOf (i : Instr) : Offer :=
  match encode i with
  | .control cmd payload => .command cmd payload
  | .source beat => .beat beat

/-- What a statement offers (R94, R95). -/
def Stmt.offers : Stmt → List Offer
  | .start       => [offerOf .start]
  | .cancel      => [offerOf .cancel]
  | .snapshot ch => [offerOf (.snapshot ch)]
  | .range ch on => [offerOf (.range ch on)]
  | .status      => [offerOf .status]
  | .block bytes => [offerOf (blockInstr bytes)]
  | .chunk bytes => chunkOffers bytes
  | .eos         => [offerOf .eos]
  | .srcerr c    => [offerOf (.err c)]
  | .frame v     => chunkOffers v.bytes
  | .block16 v   => [offerOf (blockInstr v.bytes)]

/-- A token of a line. -/
inductive Token where
  | word (cs : List Char)
  | comma
  | colon
  deriving DecidableEq, Repr

def flushWord (acc : List Char) (ts : List Token) : List Token :=
  match acc with
  | [] => ts
  | _ => .word acc.reverse :: ts

/-- The tokens of a line, `acc` being the letters of the word under way, last first. A `;` begins a comment. -/
def lexLine (acc : List Char) : List Char → List Token
  | [] => flushWord acc []
  | c :: cs =>
    if c = ';' then flushWord acc []
    else if c = ' ' ∨ c = '\t' ∨ c = '\r' then flushWord acc (lexLine [] cs)
    else if c = ',' then flushWord acc (.comma :: lexLine [] cs)
    else if c = ':' then flushWord acc (.colon :: lexLine [] cs)
    else lexLine (c :: acc) cs

def digitValue (c : Char) : Option Nat :=
  if '0'.toNat ≤ c.toNat ∧ c.toNat ≤ '9'.toNat then some (c.toNat - '0'.toNat)
  else if 'a'.toNat ≤ c.toNat ∧ c.toNat ≤ 'f'.toNat then some (c.toNat - 'a'.toNat + 10)
  else if 'A'.toNat ≤ c.toNat ∧ c.toNat ≤ 'F'.toNat then some (c.toNat - 'A'.toNat + 10)
  else none

def digits (base acc : Nat) : List Char → Option Nat
  | [] => some acc
  | c :: cs =>
    match digitValue c with
    | some d => if d < base then digits base (base * acc + d) cs else none
    | none => none

/-- A number: decimal, or hexadecimal with `0x` (R94). -/
def number : List Char → Option Nat
  | [] => none
  | '0' :: 'x' :: c :: cs => digits 16 0 (c :: cs)
  | c :: cs => digits 10 0 (c :: cs)

/-- A number that is below `2^n`. -/
def numberBits (n : Nat) (cs : List Char) : Option (BitVec n) :=
  match number cs with
  | some v => if v < 2 ^ n then some (BitVec.ofNat n v) else none
  | none => none

/-- `c<n>` (R94). -/
def channelName : List Char → Option Channel
  | 'c' :: cs =>
    match number cs with
    | some v => if h : v < Config.channelCount then some ⟨v, h⟩ else none
    | none => none
  | _ => none

/-- A byte list: pairs of hexadecimal digits (R94). -/
def byteList : List Token → Option (List Byte)
  | [] => some []
  | .word [h, l] :: ts =>
    match digits 16 0 [h, l], byteList ts with
    | some v, some bs => some (BitVec.ofNat 8 v :: bs)
    | _, _ => none
  | _ => none

/-- `v0, v1, v2, v3` (R95). -/
def sampleOperand : List Token → Option Sample
  | [.word a, .comma, .word b, .comma, .word c, .comma, .word d] =>
    match numberBits 32 a, numberBits 32 b, numberBits 32 c, numberBits 32 d with
    | some v0, some v1, some v2, some v3 => some ⟨v0, v1, v2, v3⟩
    | _, _, _, _ => none
  | _ => none

/-- The statement of a line's tokens (R94, R95). -/
def parseStmt : List Token → Option Stmt
  | [.word ['s', 't', 'a', 'r', 't']] => some .start
  | [.word ['c', 'a', 'n', 'c', 'e', 'l']] => some .cancel
  | [.word ['s', 't', 'a', 't', 'u', 's']] => some .status
  | [.word ['e', 'o', 's']] => some .eos
  | [.word ['s', 'n', 'a', 'p', 's', 'h', 'o', 't'], .word c] => (channelName c).map .snapshot
  | [.word ['r', 'a', 'n', 'g', 'e'], .word c, .comma, .word ['o', 'n']] => (channelName c).map (.range · true)
  | [.word ['r', 'a', 'n', 'g', 'e'], .word c, .comma, .word ['o', 'f', 'f']] => (channelName c).map (.range · false)
  | [.word ['s', 'r', 'c', 'e', 'r', 'r'], .word c] => (numberBits 8 c).map .srcerr
  | .word ['f', 'r', 'a', 'm', 'e'] :: ts => (sampleOperand ts).map .frame
  | .word ['b', 'l', 'o', 'c', 'k', '1', '6'] :: ts => (sampleOperand ts).map .block16
  | .word ['b', 'l', 'o', 'c', 'k'] :: .word n :: .colon :: ts =>
    match number n, byteList ts with
    | some v, some bs => if v = bs.length ∧ v ≤ Config.frameSize then some (.block bs) else none
    | _, _ => none
  | .word ['c', 'h', 'u', 'n', 'k'] :: ts =>
    match byteList ts with
    | some (b :: bs) => some (.chunk (b :: bs))
    | _ => none
  | _ => none

/-- The statements of a listing, one a line; a line that holds only white space or a comment holds none. -/
def parseLines : List (List Char) → Option (List Stmt)
  | [] => some []
  | l :: ls =>
    match lexLine [] l, parseLines ls with
    | [], r => r
    | ts, some rest =>
      match parseStmt ts with
      | some st => some (st :: rest)
      | none => none
    | _, none => none

def splitLines (acc : List Char) : List Char → List (List Char)
  | [] => [acc.reverse]
  | c :: cs => if c = '\n' then acc.reverse :: splitLines [] cs else splitLines (c :: acc) cs

/-- The offers of a listing: one transaction-level interleaving, in line order (R94). -/
def assemble (text : List Char) : Option (List Offer) :=
  (parseLines (splitLines [] text)).map fun sts => sts.flatMap Stmt.offers

end Sys2Proof.Machine
end

