-- ==== Sys2Proof/Safety.lean ====
section
/-! DEFINITION. What a safe run is, in the terms claims use: the invariants of the block's state, the streams it has
produced, and when two states look the same from outside. -/

namespace Sys2Proof.Machine

/-- The values of a channel that its SAMPLE events have carried, oldest first. -/
def channelValues (c : Channel) : List OutEvent → List U32
  | [] => []
  | .sample v :: es => v.ch c :: channelValues c es
  | .error _ _ _ :: es => channelValues c es

/-- The samples of an output stream, oldest first. -/
def samplesOf : List OutEvent → List Sample
  | [] => []
  | .sample v :: es => v :: samplesOf es
  | .error _ _ _ :: es => samplesOf es

/-- The value of bytes `4c .. 4c+3` of a frame, the first the least significant (R51, R101). -/
def groupValue (blk : List Byte) (c : Channel) : Nat :=
  (blk.getD (4 * c.val) 0).toNat + 256 * (blk.getD (4 * c.val + 1) 0).toNat +
    65536 * (blk.getD (4 * c.val + 2) 0).toNat + 16777216 * (blk.getD (4 * c.val + 3) 0).toNat

/-- The numbers of the stream states (R20). -/
def stateNumber : StreamState → Nat
  | .opened    => 0
  | .reading   => 1
  | .closed    => 2
  | .errored   => 3
  | .cancelled => 4

/-- A READING state in which a source event has a step: in a chunk, or with no cancellation (R163, R91). -/
def State.Pulling (s : State) : Prop := s.st = .reading ∧ (s.inChunk = true ∨ s.cancelReq = false)

/-- READING, between chunks, not cancelled: the block waits for the next source event (R216). -/
def State.Idle (s : State) : Prop := s.st = .reading ∧ s.inChunk = false ∧ s.cancelReq = false

/-- An ERROR event whose `fatal` bit is 1 (R82). -/
def OutEvent.isFatal : OutEvent → Bool
  | .sample _ => false
  | .error _ fatal _ => fatal

/-- The last `n` elements of a list. -/
def lastN {α : Type} (n : Nat) (xs : List α) : List α := xs.drop (xs.length - n)

/-- The invariant of the block's control state. -/
structure State.Inv (s : State) : Prop where
  /-- R30. -/
  carry_short : s.carry.length ≤ Config.frameSize - 1
  /-- A chunk is in progress only while READING (R163, R91). -/
  chunk_reading : s.inChunk = true → s.st = .reading
  /-- The carry length a chunk's observation point keeps is one of R30's. -/
  mark_short : ∀ n, s.chunkMark = some n → n ≤ Config.frameSize - 1
  /-- A cancellation that waits, waits for the end of a chunk (R165, R210). -/
  cancel_waits : s.st = .reading → s.cancelReq = true → s.inChunk = true
  /-- CANCELLED is reached only through the token (R162, R165). -/
  cancelled_requested : s.st = .cancelled → s.cancelReq = true
  /-- Before START nothing has been taken in or sent (R231). -/
  opened_fresh : s.st = .opened → s.carry = [] ∧ s.ring.count = 0 ∧ s.out = []

/-- Every window is the last CAP values of its channel in the SAMPLE stream (R121, R161, R173). -/
def State.WindowsFollowStream (s : State) : Prop :=
  ∀ c : Channel, s.win c = lastN Config.windowCapacity (channelValues c s.out)

/-- A fatal event is in the stream only in ERRORED, and is then the last event (R61, R176, R217). -/
def State.FatalIsLast (s : State) : Prop :=
  (∀ e ∈ s.out.dropLast, e.isFatal = false) ∧
  (s.st = .errored ↔ ∃ e, s.out.getLast? = some e ∧ e.isFatal = true)

/-- An ERROR event of one of the two kinds the block emits (R200): FrameTooShort is not fatal and carries a length below
FRAME_SIZE, SourceError is fatal. -/
def OutEvent.Legal : OutEvent → Prop
  | .sample _ => True
  | .error .frameTooShort fatal info => fatal = false ∧ info.toNat < Config.frameSize
  | .error .sourceError fatal _ => fatal = true
  | .error .cancelledError _ _ => False

/-- No programming error has been recorded: the premise R13 gives every claim about a well-behaved host. -/
abbrev State.Clean (s : State) : Prop := s.progErr = false

/-- Two states that differ only in registers no command can read: the same windows, and every other field the same (R26). -/
def State.SameView (s t : State) : Prop :=
  t = { s with ring := t.ring } ∧ ∀ c : Channel, t.win c = s.win c

/-- Two outcomes that look the same. -/
def SameOutcome : Host.Outcome State Fault Refusal → Host.Outcome State Fault Refusal → Prop
  | .next s, .next t => s.SameView t
  | .fault a, .fault b => a = b
  | .refused a, .refused b => a = b
  | _, _ => False

/-- A step of the block that is not a reset, with the offer it takes. -/
def StepOf (s : State) (o : Offer) (t : State) : Prop :=
  ∃ rest, s.nextOffer = some (o, rest) ∧ o ≠ .rst ∧ step s = .next t

end Sys2Proof.Machine
end

