-- ==== Sys2Proof/Certificates/Slice0/Obligations.lean ====
section
/-! DEFINITION. The statements about the block, from the numbered rules of spec/. -/

open Sys2Proof Sys2Proof.Machine

/-! ### Encodings -/

/-- Every well-formed instruction, with every operand, is what its words decode to. -/
def Obligations.EncodedInstrDecodesToItself : Prop :=
  ∀ i : Instr, i.WellFormed → decode (encode i) = .ok i

/-- A legal command word has one meaning: it is the encoding of the instruction it decodes to (R73, R74). -/
def Obligations.LegalCommandWordIsItsEncoding : Prop :=
  ∀ (cmd : BitVec 32) (p : BitVec 128) (i : Instr), decodeCommand cmd p = .ok i →
    i.WellFormed ∧ ∃ q, encode i = .control cmd q ∧ (q = p ∨ q = 0)

/-- R74: the words that are illegal, by their fields as numbers. Case (e) cannot occur with four channels. -/
def Obligations.IllegalCommandWords : Prop :=
  ∀ (cmd : BitVec 32) (p : BitVec 128) (op ch en len rsvd : Nat),
    op = cmd.toNat % 16 → ch = cmd.toNat / 16 % 4 → en = cmd.toNat / 64 % 2 → len = cmd.toNat / 128 % 32 →
    rsvd = cmd.toNat / 4096 →
    ((∃ e, decodeCommand cmd p = .error e) ↔
      (op = 0 ∨ 7 ≤ op) ∨ rsvd ≠ 0 ∨
      ((op = 1 ∨ op = 2 ∨ op = 5) ∧ (ch ≠ 0 ∨ en ≠ 0 ∨ len ≠ 0)) ∨ (op = 3 ∧ (en ≠ 0 ∨ len ≠ 0)) ∨
      (op = 4 ∧ len ≠ 0) ∨ (op = 6 ∧ (ch ≠ 0 ∨ en ≠ 0)) ∨
      (op = 6 ∧ 16 < len) ∨ ((op = 3 ∨ op = 4) ∧ 4 ≤ ch))

/-- R76, R77: what each kind of beat is, with the bits it ignores. -/
def Obligations.SourceBeatKinds : Prop :=
  ∀ b : BitVec 11,
    (b.toNat / 512 = 0 → decodeBeat b = .data (decide (b.toNat / 256 % 2 = 1)) (BitVec.ofNat 8 (b.toNat % 256))) ∧
    (b.toNat / 512 = 1 → decodeBeat b = .eos) ∧
    (b.toNat / 512 = 2 → decodeBeat b = .err (BitVec.ofNat 8 (b.toNat % 256))) ∧
    (b.toNat / 512 = 3 → decodeBeat b = .srcRsvd (BitVec.ofNat 8 (b.toNat % 256)))

/-- R78: a chunk of L bytes is L DATA beats, in order, `last` on the final one only. -/
def Obligations.ChunkIsDataBeats : Prop :=
  ∀ bytes : List Byte, (chunkBeats bytes).length = bytes.length ∧
    ∀ (k : Nat) (b : Byte), bytes[k]? = some b →
      (chunkBeats bytes)[k]?.map decodeBeat = some (.data (decide (k + 1 = bytes.length)) b)

/-- Words written out from R73 and R76 decode to their instructions (a sanity check). -/
def Obligations.SpecWordsDecode : Prop :=
  decodeCommand 0x00000001 0 = .ok .start ∧ decodeCommand 0x00000002 0 = .ok .cancel ∧
  decodeCommand 0x00000033 0 = .ok (.snapshot 3) ∧ decodeCommand 0x00000074 0 = .ok (.range 3 true) ∧
  decodeCommand 0x00000005 0 = .ok .status ∧ decodeCommand 0x00000506 0 = .ok (.block 10 0) ∧
  decodeBeat 0x1FF = .data true 0xFF ∧ decodeBeat 0x3FF = .eos ∧
  decodeBeat 0x5AB = .err 0xAB ∧ decodeBeat 0x601 = .srcRsvd 1

/-- R94, R95: a listed block is a BLOCK whose payload holds the listed bytes, and `block16` one whose payload is its four
values side by side. -/
def Obligations.ListedBlockCarriesItsBytes : Prop :=
  (∀ bytes : List Byte, bytes.length ≤ 16 → ∃ (cmd : BitVec 32) (p : BitVec 128) (len : BitVec 5),
    (Stmt.block bytes).offers = [.command cmd p] ∧ cmd.toNat = 6 + 128 * bytes.length ∧
    decodeCommand cmd p = .ok (.block len p) ∧ len.toNat = bytes.length ∧ blockBytes len p = bytes) ∧
  ∀ v : Sample, ∃ (cmd : BitVec 32) (p : BitVec 128),
    (Stmt.block16 v).offers = [.command cmd p] ∧ cmd.toNat = 0x806 ∧
    p.toNat = v.ch0.toNat + 2 ^ 32 * v.ch1.toNat + 2 ^ 64 * v.ch2.toNat + 2 ^ 96 * v.ch3.toNat

/-- R80 to R83: the bits of an output event. -/
def Obligations.OutputEventBits : Prop :=
  (∀ v : Sample, (OutEvent.sample v).kind = 1 ∧ (OutEvent.sample v).data.toNat =
    v.ch0.toNat + 2 ^ 32 * v.ch1.toNat + 2 ^ 64 * v.ch2.toNat + 2 ^ 96 * v.ch3.toNat) ∧
  ∀ (code : ErrCode) (fatal : Bool) (info : Byte), (OutEvent.error code fatal info).kind = 2 ∧
    (OutEvent.error code fatal info).data.toNat =
      (match code with | .frameTooShort => 1 | .sourceError => 2 | .cancelledError => 3) +
        16 * fatal.toNat + 32 * info.toNat

/-- R84, R85: every beat of a response carries its status, and `last` is 1 on the final beat only. -/
def Obligations.ResponseBeats : Prop :=
  ∀ r : Response, r.beats.length = r.data.length ∧
    ∀ (i : Nat) (b : RspBeat), r.beats[i]? = some b →
      b.status.toNat = (match r.status with | .ok => 0 | .illegalCmd => 1 | .illegalState => 2) ∧
      r.data[i]? = some b.data ∧ (b.last = true ↔ i + 1 = r.data.length)

/-! ### Decoder and assembler -/

/-- R100 to R102: a full block decodes to its four little-endian values; a short one is reported by its length, changes
no window and sends no sample. -/
def Obligations.BlockDecodesOrIsReportedShort : Prop :=
  (∀ blk : List Byte, blk.length = 16 → ∃ v, decodeFrame blk = .ok v ∧ ∀ c, (v.ch c).toNat = groupValue blk c) ∧
  ∀ (blk : List Byte) (s : State), blk.length < 16 → decodeFrame blk = .error blk.length ∧
    ∃ e : OutEvent, processBlock s blk = { s with out := s.out ++ [e] } ∧ e.kind = 2 ∧ e.data.toNat = 1 + 32 * blk.length

/-- R104, the round-trip law. -/
def Obligations.CodecRoundTrip : Prop :=
  ∀ v : Sample, v.bytes.length = 16 ∧ decodeFrame v.bytes = .ok v

/-- R111, conservation, of one Feed and over a whole stream. -/
def Obligations.FeedConservesBytes : Prop :=
  (∀ chunks : List (List Byte), (feedMany [] chunks).1.flatten ++ (feedMany [] chunks).2 = chunks.flatten) ∧
  ∀ carry chunk : List Byte,
    (feed carry chunk).1.flatten ++ (feed carry chunk).2 = carry ++ chunk ∧
    (feed carry chunk).1.length = (carry.length + chunk.length) / 16 ∧
    (feed carry chunk).2.length = (carry.length + chunk.length) % 16 ∧
    ∀ f ∈ (feed carry chunk).1, f.length = 16

/-- R113: where the chunk boundaries fall changes neither the frames nor the final carry. A starting carry is below a frame
(R30). -/
def Obligations.ChunkBoundariesDoNotMatter : Prop :=
  ∀ (carry : List Byte) (xs ys : List (List Byte)), carry.length ≤ 15 → xs.flatten = ys.flatten →
    feedMany carry xs = feedMany carry ys

/-- R54, R114: frame k of a stream is its bytes 16k to 16k+15, counted from stream start, whatever the bytes are. -/
def Obligations.FramesAlignedToStreamStart : Prop :=
  ∀ chunks : List (List Byte),
    (feedMany [] chunks).1.length = chunks.flatten.length / 16 ∧
    ∀ (k : Nat) (f : List Byte), (feedMany [] chunks).1[k]? = some f →
      f.length = 16 ∧ ∀ j < 16, f[j]? = chunks.flatten[16 * k + j]?

/-! ### Windows -/

/-- R122: the ring realisation's commit, register by register, and that it is Push on every window. -/
def Obligations.RingCommitIsPush : Prop :=
  ∀ (r : RingFifo) (v : Sample) (c : Channel), (r.commit v).window c = push 20 (r.window c) (v.ch c) ∧
    (r.count.val < 20 → (r.commit v).head = r.head ∧ (r.commit v).count.val = r.count.val + 1 ∧
      ∀ j, ((r.commit v).mem.get c).get j = if j.val = (r.head.val + r.count.val) % 20 then v.ch c else (r.mem.get c).get j) ∧
    (r.count.val = 20 → (r.commit v).head.val = (r.head.val + 1) % 20 ∧ (r.commit v).count = r.count ∧
      ∀ j, ((r.commit v).mem.get c).get j = if j = r.head then v.ch c else (r.mem.get c).get j)

/-- R121: after any number of pushes into an empty window it holds the last CAP values, oldest first, unmodified; a push
into a window that is not full evicts nothing. -/
def Obligations.PushesKeepTheLastCap : Prop :=
  ∀ (cap : Nat), 1 ≤ cap → (∀ vs : List U32, vs.foldl (push cap) [] = lastN cap vs) ∧
    ∀ (w : List U32) (v : U32), w.length < cap → push cap w v = w ++ [v]

/-- R31: the windows have one length, at most CAP, which STATUS shows in its bits [13:9]. -/
def Obligations.WindowsHaveOneLength : Prop :=
  ∀ (s : State) (c : Channel), (s.win c).length = (s.win 0).length ∧ (s.win c).length ≤ 20 ∧
    (s.win c).length = s.wlen ∧ s.statusWord.toNat / 512 % 32 = s.wlen

/-- R26: states that differ only in registers outside the windows cannot be told apart by any step. -/
def Obligations.RingRegistersUnobservable : Prop :=
  ∀ s t : State, s.SameView t → SameOutcome (step s) (step t)

/-- R123, R124, R87: SNAPSHOT completes in every state, returns the window in CAP entries, and changes nothing. -/
def Obligations.SnapshotReturnsTheWindow : Prop :=
  (∀ (cmd : BitVec 32) (p : BitVec 128) (ch : Channel),
    decodeCommand cmd p = .ok (.snapshot ch) ↔ cmd.toNat = 3 + 16 * ch.val) ∧
  ∀ (ch : Channel) (s : State), ∃ beats : List (BitVec 40),
    exec (.snapshot ch) s = .next { s with rsp := s.rsp ++ [⟨.ok, beats⟩] } ∧ beats.length = 20 ∧
    ∀ i < 20, beats[i]?.map BitVec.toNat =
      some (match (s.win ch)[i]? with | some v => 2 ^ 32 + v.toNat | none => 0)

/-! ### Display range -/

/-- R140, R141, R143, R144, R88: RANGE completes in every state with the exact bounds, and changes nothing. -/
def Obligations.RangeReturnsTheBounds : Prop :=
  (∀ (cmd : BitVec 32) (p : BitVec 128) (ch : Channel) (en : Bool),
    decodeCommand cmd p = .ok (.range ch en) ↔ cmd.toNat = 4 + 16 * ch.val + 64 * en.toNat) ∧
  ∀ (ch : Channel) (en : Bool) (s : State), ∃ lo hi : BitVec 40,
    exec (.range ch en) s = .next { s with rsp := s.rsp ++ [⟨.ok, [lo, hi]⟩] } ∧
    (en = false ∨ s.win ch = [] → lo.toNat = 0 ∧ hi.toNat = 85899345920) ∧
    ∀ mn mx : U32, en = true → mn ∈ s.win ch → mx ∈ s.win ch →
      (∀ v ∈ s.win ch, mn.toNat ≤ v.toNat ∧ v.toNat ≤ mx.toNat) →
      ∀ pad : Int, pad = (if mx = mn then 20 else (mx.toNat : Int) - mn.toNat) →
        (lo.toNat : Int) = max 0 (min (20 * (mn.toNat : Int) - pad) 85899345920) ∧
        (hi.toNat : Int) = max 0 (min (20 * (mx.toNat : Int) + pad) 85899345920)

/-- R145: the display range is never degenerate and never leaves its scale. -/
def Obligations.RangeBoundsOrdered : Prop :=
  ∀ (w : List U32) (en : Bool), 0 ≤ (rangeOf Config.params w en).1 ∧
    (rangeOf Config.params w en).1 < (rangeOf Config.params w en).2 ∧
    (rangeOf Config.params w en).2 ≤ 85899345920

/-- R142: the order in which the reducer takes the values does not matter. -/
def Obligations.RangeOrderIndependent : Prop :=
  ∀ (p : Params) (w w' : List U32) (en : Bool), w.Perm w' → rangeOf p w en = rangeOf p w' en

/-! ### Host commands -/

/-- R164, R174, R234: START opens the stream, or cancels at once, or is refused. -/
def Obligations.StartOpensOrIsRefused : Prop :=
  (∀ (cmd : BitVec 32) (p : BitVec 128), decodeCommand cmd p = .ok .start ↔ cmd.toNat = 1) ∧
  ∀ s : State,
    (s.st = .opened → exec .start s = .next { s with
      st := if s.cancelReq then .cancelled else .reading, rsp := s.rsp ++ [⟨.ok, [0]⟩] }) ∧
    (s.st ≠ .opened → exec .start s = .next { s with
      progErr := true, rsp := s.rsp ++ [⟨.illegalState, [0]⟩] })

/-- R165: CANCEL is legal in every state; it ends READING at once between chunks and waits inside one. -/
def Obligations.CancelSetsTheToken : Prop :=
  (∀ (cmd : BitVec 32) (p : BitVec 128), decodeCommand cmd p = .ok .cancel ↔ cmd.toNat = 2) ∧
  ∀ s : State,
    (s.st = .reading → s.inChunk = false → exec .cancel s = .next { s with
      cancelReq := true, st := .cancelled, rsp := s.rsp ++ [⟨.ok, [0]⟩] }) ∧
    (s.st ≠ .reading ∨ s.inChunk = true → exec .cancel s = .next { s with
      cancelReq := true, rsp := s.rsp ++ [⟨.ok, [0]⟩] })

/-- R166, R86: the STATUS word between chunks. The premise on the carry is R30. -/
def Obligations.StatusShowsTheState : Prop :=
  (∀ (cmd : BitVec 32) (p : BitVec 128), decodeCommand cmd p = .ok .status ↔ cmd.toNat = 5) ∧
  ∀ s : State, s.inChunk = false → s.carry.length ≤ 15 → ∃ w : BitVec 40,
    exec .status s = .next { s with rsp := s.rsp ++ [⟨.ok, [w]⟩] } ∧
    w.toNat = stateNumber s.st + 8 * s.carry.length + 128 * s.cancelReq.toNat + 256 * s.progErr.toNat +
      512 * (s.win 0).length

/-- R60: inside a chunk STATUS completes too, and its `carry_len` is the one at the chunk's latest observation point, which
the mark keeps. That the other fields are as they stand is the model's reading (assumption log 7). -/
def Obligations.StatusInsideChunk : Prop :=
  ∀ (s : State) (n : Nat), s.chunkMark = some n → n ≤ 15 → ∃ w : BitVec 40,
    exec .status s = .next { s with rsp := s.rsp ++ [⟨.ok, [w]⟩] } ∧
    w.toNat = stateNumber s.st + 8 * n + 128 * s.cancelReq.toNat + 256 * s.progErr.toNat + 512 * (s.win 0).length

/-- R172, R161, R52: a BLOCK of 16 bytes is one frame commit. Its SAMPLE data is the payload, and the carry is untouched. -/
def Obligations.FullBlockCommitsOneFrame : Prop :=
  (∀ (cmd : BitVec 32) (p q : BitVec 128) (len : BitVec 5),
    decodeCommand cmd p = .ok (.block len q) ↔ cmd.toNat = 6 + 128 * len.toNat ∧ len.toNat ≤ 16 ∧ q = p) ∧
  ∀ (payload : BitVec 128) (s : State), s.st = .reading → s.inChunk = false → ∃ (v : Sample) (t : State),
    exec (.block 16 payload) s = .next t ∧ (OutEvent.sample v).data = payload ∧
    t = { s with ring := t.ring, out := s.out ++ [.sample v], rsp := s.rsp ++ [⟨.ok, [0]⟩],
                 st := if s.cancelReq then .cancelled else .reading } ∧
    ∀ c, t.win c = lastN 20 (s.win c ++ [v.ch c])

/-- R172, R201: a shorter BLOCK is reported on the output stream and answered OK; no window, no carry changes. -/
def Obligations.ShortBlockIsReported : Prop :=
  ∀ (len : BitVec 5) (payload : BitVec 128) (s : State), len.toNat < 16 → s.st = .reading → s.inChunk = false →
    exec (.block len payload) s = .next { s with
      out := s.out ++ [.error .frameTooShort false (BitVec.ofNat 8 len.toNat)], rsp := s.rsp ++ [⟨.ok, [0]⟩],
      st := if s.cancelReq then .cancelled else .reading }

/-- R172, R205, R206, R93: when a BLOCK is refused, with which status, and when it is held. -/
def Obligations.BlockRefusedOrHeld : Prop :=
  ∀ (len : BitVec 5) (payload : BitVec 128) (s : State),
    (16 < len.toNat → exec (.block len payload) s = .next { s with
      progErr := true, rsp := s.rsp ++ [⟨.illegalCmd, [0]⟩] }) ∧
    (len.toNat ≤ 16 → s.inChunk = false → s.st ≠ .reading → exec (.block len payload) s = .next { s with
      progErr := true, rsp := s.rsp ++ [⟨.illegalState, [0]⟩] }) ∧
    (len.toNat ≤ 16 → s.inChunk = true → exec (.block len payload) s = .fault .blockHeld)

/-- R58: a query changes nothing but the response stream, and asked again it answers the same. -/
def Obligations.QueriesHaveNoSideEffect : Prop :=
  ∀ (q : Instr) (s : State), (∃ ch, q = .snapshot ch) ∨ (∃ ch en, q = .range ch en) ∨ q = .status →
    ∃ r, exec q s = .next { s with rsp := s.rsp ++ [r] } ∧
      exec q { s with rsp := s.rsp ++ [r] } = .next { s with rsp := s.rsp ++ [r, r] }

/-! ### Source events -/

/-- R91, R110, R161, R162: a DATA beat is fed; the byte that completes a frame commits it; `last` ends the chunk and runs
loop top. The premise on the carry is R30. -/
def Obligations.DataBeatFeedsOneByte : Prop :=
  ∀ (last : Bool) (b : Byte) (s : State), s.Pulling → s.carry.length ≤ 15 → ∃ t : State,
    exec (.data last b) s = .next t ∧
    t = { s with carry := t.carry, ring := t.ring, out := t.out, chunkMark := t.chunkMark,
                 st := if last && s.cancelReq then .cancelled else .reading } ∧
    t.inChunk = !last ∧
    (s.carry.length < 15 → t.carry = s.carry ++ [b] ∧ t.ring = s.ring ∧ t.out = s.out) ∧
    (s.carry.length = 15 → t.carry = [] ∧ ∃ v : Sample, t.out = s.out ++ [.sample v] ∧
      ∀ c, (v.ch c).toNat = groupValue (s.carry ++ [b]) c ∧ t.win c = lastN 20 (s.win c ++ [v.ch c]))

/-- R60: inside a chunk the mark is the carry's length at the chunk's start, and 0, the length a frame commit leaves, from the
chunk's first frame commit on. That a field of State keeps it is the model's (assumption log 7). -/
def Obligations.ChunkMarkIsTheObservationPoint : Prop :=
  ∀ (b : Byte) (s : State), s.Pulling → s.carry.length ≤ 15 → ∃ t : State,
    exec (.data false b) s = .next t ∧
    (s.carry.length = 15 → t.chunkMark = some 0) ∧
    (s.carry.length < 15 → s.chunkMark = none → t.chunkMark = some s.carry.length) ∧
    ∀ n, s.carry.length < 15 → s.chunkMark = some n → t.chunkMark = some n

/-- R168, R93: EOS closes the stream with no event, its carry and windows kept; inside a chunk with a cancellation that
waits, it cancels instead. -/
def Obligations.EosClosesTheStream : Prop :=
  (∀ b : BitVec 11, decodeBeat b = .eos ↔ b.toNat / 512 = 1) ∧
  ∀ s : State,
    (s.st = .reading → s.cancelReq = false → exec .eos s = .next { s with st := .closed, chunkMark := none }) ∧
    (s.st = .reading → s.cancelReq = true → s.inChunk = true →
      exec .eos s = .next { s with st := .cancelled, chunkMark := none })

/-- R169, R170, R176, R93: ERR and the reserved kind end the stream in ERRORED after exactly one fatal event. -/
def Obligations.SourceErrorIsFatal : Prop :=
  (∀ (b : BitVec 11) (cause : Byte),
    (decodeBeat b = .err cause ↔ b.toNat / 512 = 2 ∧ cause.toNat = b.toNat % 256) ∧
    (decodeBeat b = .srcRsvd cause ↔ b.toNat / 512 = 3 ∧ cause.toNat = b.toNat % 256)) ∧
  ∀ (cause : Byte) (i : Instr) (s : State), i = .err cause ∨ i = .srcRsvd cause →
    (s.st = .reading → s.cancelReq = false → ∃ e : OutEvent, e.kind = 2 ∧ e.data.toNat = 0x12 + 32 * cause.toNat ∧
      exec i s = .next { s with st := .errored, chunkMark := none, out := s.out ++ [e] }) ∧
    (s.st = .reading → s.cancelReq = true → s.inChunk = true →
      exec i s = .next { s with st := .cancelled, chunkMark := none })

/-- R163: outside READING a source event has no step, and no step takes one. -/
def Obligations.SourceEventsOnlyInReading : Prop :=
  (∀ (i : Instr) (s : State), s.st ≠ .reading →
    (∃ l b, i = .data l b) ∨ i = .eos ∨ (∃ c, i = .err c) ∨ (∃ c, i = .srcRsvd c) →
    exec i s = .fault .sourceNotEnabled) ∧
  (∀ (bytes : List Byte) (s : State), s.st ≠ .reading → execChunk bytes s = .fault .sourceNotEnabled) ∧
  (∀ s : State, s.st ≠ .reading → s.srcReady = false) ∧
  ∀ (s : State) (o : Offer) (rest : List Offer), s.nextOffer = some (o, rest) → o.onSource = true → s.Pulling

/-- R167: the whole chunk as one event: the complete frames of carry and chunk are committed in order, the rest is the
new carry. -/
def Obligations.ChunkCommitsItsFrames : Prop :=
  ∀ (bytes : List Byte) (s : State), s.Idle → ∃ (t : State) (vs : List Sample),
    execChunk bytes s = .next t ∧
    t = { s with carry := (s.carry ++ bytes).drop (16 * vs.length), ring := t.ring,
                 out := s.out ++ vs.map .sample } ∧
    vs.length = (s.carry.length + bytes.length) / 16 ∧
    (∀ (k : Nat) (v : Sample), vs[k]? = some v → ∀ c, (v.ch c).toNat = groupValue ((s.carry ++ bytes).drop (16 * k)) c) ∧
    ∀ c, t.win c = lastN 20 (s.win c ++ vs.map (Sample.ch · c))

/-- R115: an empty chunk feeds nothing and changes nothing. The premise on the carry is R30. -/
def Obligations.EmptyChunkChangesNothing : Prop :=
  (∀ carry : List Byte, carry.length ≤ 15 → feed carry [] = ([], carry)) ∧
  ∀ s : State, s.Idle → s.carry.length ≤ 15 → execChunk [] s = .next s

/-- R12, R78, R91: a chunk sent as beats, with a consumer that keeps up, ends exactly where the transaction-level CHUNK
event ends. -/
def Obligations.BeatsRefineTheChunk : Prop :=
  ∀ (b : Byte) (bytes : List Byte) (rest : List Offer) (s : State), s.Idle → s.outStall = none →
    Host.Core.run Sys2Proof.core (bytes.length + 1) { s with offers := chunkOffers (b :: bytes) ++ rest } =
      execChunk (b :: bytes) { s with offers := rest }

/-! ### Steps -/

/-- A step runs the instruction that the taken offer decodes to, with that offer removed; a beat that is not accepted
(R93) stays offered. That a word placed by `withFetchWord` is what the next step takes is the model's choice (assumption
logs 4 and 11). -/
def Obligations.StepRunsTheDecodedInstr : Prop :=
  (∀ (s : State) (cmd : BitVec 32) (p : BitVec 128) (rest : List Offer) (i : Instr),
    s.nextOffer = some (.command cmd p, rest) → decodeCommand cmd p = .ok i →
    step s = exec i { s with offers := rest }) ∧
  (∀ (s : State) (b : BitVec 11) (rest : List Offer), s.nextOffer = some (.beat b, rest) →
    (s.inChunk = false ∨ s.cancelReq = false ∨ b.toNat / 512 = 0 → step s = exec (decodeBeat b) { s with offers := rest }) ∧
    (s.inChunk = true → s.cancelReq = true → b.toNat / 512 ≠ 0 → step s = exec (decodeBeat b) s)) ∧
  ∀ (s : State) (nbits w : Nat) (i : Instr), decodeTableWord nbits w = some i →
    ∃ o, (s.withFetchWord nbits w).nextOffer = some (o, s.offers) ∧
      ((∃ cmd, o = .command cmd 0 ∧ decodeCommand cmd 0 = .ok i) ∨ (∃ b, o = .beat b ∧ decodeBeat b = i))

/-- R204, R89: an illegal command word is taken in every state, is answered ILLEGAL_CMD with one beat of 0, is recorded,
and changes nothing else. -/
def Obligations.IllegalCommandIsRefused : Prop :=
  (∀ (s : State) (cmd : BitVec 32) (p : BitVec 128) (rest : List Offer) (e : IllegalCmd),
    s.nextOffer = some (.command cmd p, rest) → decodeCommand cmd p = .error e →
    step s = .next { s with offers := rest, progErr := true, rsp := s.rsp ++ [⟨.illegalCmd, [0]⟩] }) ∧
  ∀ (s : State) (cmd : BitVec 32) (p : BitVec 128) (os : List Offer) (e : IllegalCmd),
    s.offers = .command cmd p :: os → decodeCommand cmd p = .error e → s.nextOffer = some (.command cmd p, os)

/-- R205: a legal command is refused with ILLEGAL_STATE exactly when it is START outside OPEN or BLOCK outside READING; and
what the refusal does. -/
def Obligations.IllegalStateRefusals : Prop :=
  ∀ (s t : State) (cmd : BitVec 32) (p : BitVec 128) (i : Instr),
    decodeCommand cmd p = .ok i → StepOf s (.command cmd p) t →
    ((∃ r, t.rsp = s.rsp ++ [r] ∧ r.status = .illegalState) ↔
      (i = .start ∧ s.st ≠ .opened) ∨ ((∃ l q, i = .block l q) ∧ s.st ≠ .reading)) ∧
    ((∃ r, t.rsp = s.rsp ++ [r] ∧ r.status = .illegalState) →
      t = { s with offers := t.offers, progErr := true, rsp := s.rsp ++ [⟨.illegalState, [0]⟩] })

/-- R245, R216: a step is a next state, but for a block that has nothing it can take, which waits. -/
def Obligations.StepStopsOnlyToWait : Prop :=
  ∀ s : State, (∃ t, step s = .next t) ∨ (step s = .fault .waiting ∧ s.nextOffer = none)

/-- R230, R33: reset from any state leaves every register at the value R33 gives, and nothing in the output stream. That it
keeps the other offers is the model's choice (assumption log 9). -/
def Obligations.ResetFromAnyState : Prop :=
  (∀ (s : State) (os : List Offer), s.offers = .rst :: os → s.nextOffer = some (.rst, os)) ∧
  ∀ (s : State) (rest : List Offer), s.nextOffer = some (.rst, rest) → ∃ t, step s = .next t ∧
    t.st = .opened ∧ t.cancelReq = false ∧ t.carry = [] ∧ (∀ c, t.win c = []) ∧ t.progErr = false ∧
    t.ring.head = 0 ∧ t.ring.count = 0 ∧ t.inChunk = false ∧ t.out = [] ∧ t.offers = rest

/-- R160, R21: the state machine moves only along its edges, and each edge is taken by exactly its events. -/
def Obligations.StateMachineEdges : Prop :=
  ∀ (s t : State) (o : Offer), s.Inv → StepOf s o t → t.st ≠ s.st →
    (s.st = .opened ∧ (∃ p, o = .command 1 p) ∧ t.st = if s.cancelReq then .cancelled else .reading) ∨
    (s.st = .reading ∧ t.st = .closed ∧ ∃ b, o = .beat b ∧ decodeBeat b = .eos) ∨
    (s.st = .reading ∧ t.st = .errored ∧ ∃ b c, o = .beat b ∧ (decodeBeat b = .err c ∨ decodeBeat b = .srcRsvd c)) ∨
    (s.st = .reading ∧ t.st = .cancelled ∧ s.inChunk = false ∧ ∃ p, o = .command 2 p) ∨
    (s.st = .reading ∧ t.st = .cancelled ∧ s.inChunk = true ∧ s.cancelReq = true ∧ ∃ b, o = .beat b ∧
      ∀ d, decodeBeat b ≠ .data false d)

/-- R22, R25, R232: short of reset, the token and the fault bit are never cleared and no terminal state is left; only CANCEL
sets the token. -/
def Obligations.OnlyResetClears : Prop :=
  ∀ (s t : State) (o : Offer), StepOf s o t →
    (s.cancelReq = true → t.cancelReq = true) ∧ (s.progErr = true → t.progErr = true) ∧
    (s.st.terminal = true → t.st = s.st) ∧
    (s.cancelReq = false → t.cancelReq = true → ∃ p, o = .command 2 p)

/-- R25: `prog_err` is set by every refused command and by nothing else, stays set until reset, and is STATUS bit [8]. -/
def Obligations.ProgErrRecordsRefusals : Prop :=
  (∀ s : State, s.statusWord.toNat / 256 % 2 = s.progErr.toNat) ∧
  ∀ (s t : State) (o : Offer), StepOf s o t →
    (t.progErr = true ↔ s.progErr = true ∨ ∃ r, t.rsp = s.rsp ++ [r] ∧ r.status ≠ .ok)

/-- R61, R173: events are only ever appended, and only in READING. -/
def Obligations.OutputStreamOnlyGrows : Prop :=
  ∀ (s t : State) (o : Offer), StepOf s o t →
    ∃ es, t.out = s.out ++ es ∧ (es ≠ [] → s.st = .reading)

/-- R62, R84: each command gets exactly one response, of the beats its row of R84 gives; no other step responds. -/
def Obligations.OneResponsePerCommand : Prop :=
  ∀ (s t : State) (o : Offer), StepOf s o t →
    (∀ cmd p, o = .command cmd p → ∃ r, t.rsp = s.rsp ++ [r] ∧
      (r.status ≠ .ok → r.data = [0]) ∧
      (r.status = .ok → ∃ i, decodeCommand cmd p = .ok i ∧ match i with
        | .snapshot _ => r.data.length = 20
        | .range _ _  => r.data.length = 2
        | .status     => r.data.length = 1
        | _           => r.data = [0])) ∧
    (o.onControl = false → t.rsp = s.rsp)

/-- R125: a window changes only with the SAMPLE event of a frame commit, and the carry only by the ingestion path. -/
def Obligations.OnlyIngestionWritesData : Prop :=
  ∀ (s t : State) (o : Offer), StepOf s o t →
    (samplesOf t.out = samplesOf s.out → t.ring = s.ring) ∧
    (t.carry ≠ s.carry → (∃ bytes, o = .chunk bytes) ∨ ∃ b l d, o = .beat b ∧ decodeBeat b = .data l d)

/-- R171: in a terminal state no source event is taken, START and BLOCK are refused, CANCEL sets only the token, the queries
are answered, and the data is kept as it is. -/
def Obligations.TerminalStatesKeepTheirData : Prop :=
  ∀ (s t : State) (o : Offer), s.st.terminal = true → StepOf s o t →
    (o.onSource = false ∧ t.st = s.st ∧ t.ring = s.ring ∧ t.carry = s.carry ∧ t.out = s.out) ∧
    ∀ cmd p i, o = .command cmd p → decodeCommand cmd p = .ok i →
      (i = .start ∨ (∃ l q, i = .block l q) →
        t = { s with offers := t.offers, progErr := true, rsp := s.rsp ++ [⟨.illegalState, [0]⟩] }) ∧
      (i = .cancel → t = { s with offers := t.offers, cancelReq := true, rsp := s.rsp ++ [⟨.ok, [0]⟩] }) ∧
      ((∃ ch, i = .snapshot ch) ∨ (∃ ch en, i = .range ch en) ∨ i = .status →
        ∃ r, r.status = .ok ∧ t = { s with offers := t.offers, rsp := s.rsp ++ [r] })

/-- R92, R207: a command that the block can take goes before the source beat of the same cycle; and a CANCEL between
chunks leaves that beat offered to a port that is closed to it. That offers of one cycle stand in this order in one list is
the model's (assumption logs 2 and 10). -/
def Obligations.ControlGoesFirstInACycle : Prop :=
  (∀ (s : State) (cmd : BitVec 32) (p : BitVec 128) (b : BitVec 11) (os : List Offer),
    s.offers = sameCycle cmd p b ++ os → s.ctlReady cmd = true →
    s.nextOffer = some (.command cmd p, .beat b :: os)) ∧
  ∀ (s : State) (p : BitVec 128) (b : BitVec 11) (os : List Offer),
    s.offers = sameCycle 2 p b ++ os → s.st = .reading → s.inChunk = false → ∃ t, step s = .next t ∧
      t.st = .cancelled ∧ t.offers = .beat b :: os ∧ t.out = s.out ∧ t.carry = s.carry ∧ t.ring = s.ring ∧
      t.srcReady = false

/-- R93, R243: inside a chunk no step takes a legal BLOCK; and a cancellation that waits lasts until the chunk ends, and
then cancels. -/
def Obligations.ChunkInProgressHoldsBlockAndCancel : Prop :=
  ∀ (s t : State) (o : Offer), s.Inv → s.inChunk = true → StepOf s o t →
    (∀ cmd p len q, o = .command cmd p → decodeCommand cmd p ≠ .ok (.block len q)) ∧
    (s.cancelReq = true → (t.inChunk = true ∧ t.st = .reading) ∨ (t.inChunk = false ∧ t.st = .cancelled))

/-- R91, R244, D29: with OUT_DEPTH events held, no step takes a source event or a legal BLOCK; with a consumer that
takes events, the output is never full. That OUT_DEPTH counts no event of a consumer that takes them, and that a full output stops a
beat of every kind and a BLOCK in every state, is the model's choice (assumption logs 8 and 18). -/
def Obligations.FullOutputStopsIntake : Prop :=
  (∀ (s : State) (o : Offer) (rest : List Offer) (taken : Nat), s.outStall = some taken →
    Config.outSpare + 1 ≤ s.out.length - taken → s.nextOffer = some (o, rest) →
    o.onSource = false ∧ ∀ cmd p len q, o = .command cmd p → decodeCommand cmd p ≠ .ok (.block len q)) ∧
  ∀ s : State, s.outStall = none → s.outFull = false

/-! ### Invariants -/

/-- R30, R163, R165: every step keeps the control invariant. -/
def Obligations.StepKeepsControlInvariant : Prop :=
  ∀ s t : State, s.Inv → step s = .next t → t.Inv

/-- R121, R161, R173: every step keeps every window equal to the last CAP values of its channel in the SAMPLE stream. -/
def Obligations.StepKeepsWindowsOnStream : Prop :=
  ∀ s t : State, s.WindowsFollowStream → step s = .next t → t.WindowsFollowStream

/-- R61, R176, R217: every step keeps a fatal event the last of the stream, there exactly in ERRORED. -/
def Obligations.StepKeepsFatalEventLast : Prop :=
  ∀ s t : State, s.FatalIsLast → step s = .next t → t.FatalIsLast

/-- R83, R200, R203: every event ever emitted is a SAMPLE, a non-fatal FrameTooShort of a length below 16, or a fatal
SourceError; cancellation is never reported. -/
def Obligations.StepEmitsOnlyLegalEvents : Prop :=
  ∀ s t : State, (∀ e ∈ s.out, e.Legal) → step s = .next t → ∀ e ∈ t.out, e.Legal

/-- The state after reset meets the four invariants. -/
def Obligations.ResetMeetsTheInvariants : Prop :=
  State.reset.Inv ∧ State.reset.WindowsFollowStream ∧ State.reset.FatalIsLast ∧ ∀ e ∈ State.reset.out, e.Legal

/-- R175: after a CANCEL taken between chunks, no run without a reset sends another event, moves a window or leaves
CANCELLED. -/
def Obligations.NothingFollowsACancellation : Prop :=
  ∀ (s t u : State) (k : Nat), s.st = .reading → s.inChunk = false → (∀ o ∈ s.offers, o ≠ .rst) →
    exec .cancel s = .next t → Host.Core.run Sys2Proof.core k t = .next u →
    u.st = .cancelled ∧ u.out = t.out ∧ u.ring = t.ring ∧ u.carry = t.carry
end

