-- ==== Sys2Proof/Laws/State.lean ====
section
/-! SUPPORT. What each shared operation does to each field of State: one lemma a field, so that no proof unfolds them. -/

namespace Sys2Proof.Machine

/-! ### `in_chunk` is read from the chunk's mark -/

@[simp] theorem inChunk_mk (st : StreamState) (cr : Bool) (ca : List Byte) (ri : RingFifo) (pe : Bool) (m : Option Nat)
    (out : List OutEvent) (rsp : List Response) (os : List Offer) (ow : Option Nat) :
    (State.mk st cr ca ri pe m out rsp os ow).inChunk = m.isSome := rfl

@[simp] theorem isSome_chunkMark (s : State) : s.chunkMark.isSome = s.inChunk := rfl

theorem chunkMark_of_inChunk_false {s : State} (h : s.inChunk = false) : s.chunkMark = none :=
  Option.isSome_eq_false_iff.1 h |> Option.isNone_iff_eq_none.1

/-- Between chunks STATUS shows the carry's length. -/
theorem carryShown_of_inChunk_false {s : State} (h : s.inChunk = false) : s.carryShown = s.carry.length := by
  simp [State.carryShown, chunkMark_of_inChunk_false h]

/-- Inside a chunk STATUS shows the mark (R60). -/
theorem carryShown_of_chunkMark {s : State} {n : Nat} (h : s.chunkMark = some n) : s.carryShown = n := by
  simp [State.carryShown, h]

theorem chunkMark_of_inChunk {s : State} (h : s.inChunk = true) : ∃ n, s.chunkMark = some n :=
  Option.isSome_iff_exists.1 h

section Primitives
variable (e : OutEvent) (st : RspStatus) (ds : List (BitVec 40)) (c : Byte) (s : State)

@[simp] theorem emit_st : (emit e s).st = s.st := rfl
@[simp] theorem emit_cancelReq : (emit e s).cancelReq = s.cancelReq := rfl
@[simp] theorem emit_carry : (emit e s).carry = s.carry := rfl
@[simp] theorem emit_ring : (emit e s).ring = s.ring := rfl
@[simp] theorem emit_progErr : (emit e s).progErr = s.progErr := rfl
@[simp] theorem emit_inChunk : (emit e s).inChunk = s.inChunk := rfl
@[simp] theorem emit_chunkMark : (emit e s).chunkMark = s.chunkMark := rfl
@[simp] theorem emit_out : (emit e s).out = s.out ++ [e] := rfl
@[simp] theorem emit_rsp : (emit e s).rsp = s.rsp := rfl
@[simp] theorem emit_offers : (emit e s).offers = s.offers := rfl
@[simp] theorem emit_outStall : (emit e s).outStall = s.outStall := rfl

@[simp] theorem respond_st : (respond st ds s).st = s.st := rfl
@[simp] theorem respond_cancelReq : (respond st ds s).cancelReq = s.cancelReq := rfl
@[simp] theorem respond_carry : (respond st ds s).carry = s.carry := rfl
@[simp] theorem respond_ring : (respond st ds s).ring = s.ring := rfl
@[simp] theorem respond_progErr : (respond st ds s).progErr = s.progErr := rfl
@[simp] theorem respond_inChunk : (respond st ds s).inChunk = s.inChunk := rfl
@[simp] theorem respond_chunkMark : (respond st ds s).chunkMark = s.chunkMark := rfl
@[simp] theorem respond_out : (respond st ds s).out = s.out := rfl
@[simp] theorem respond_rsp : (respond st ds s).rsp = s.rsp ++ [⟨st, ds⟩] := rfl
@[simp] theorem respond_offers : (respond st ds s).offers = s.offers := rfl
@[simp] theorem respond_outStall : (respond st ds s).outStall = s.outStall := rfl

@[simp] theorem refuse_st : (refuse st s).st = s.st := rfl
@[simp] theorem refuse_cancelReq : (refuse st s).cancelReq = s.cancelReq := rfl
@[simp] theorem refuse_carry : (refuse st s).carry = s.carry := rfl
@[simp] theorem refuse_ring : (refuse st s).ring = s.ring := rfl
@[simp] theorem refuse_progErr : (refuse st s).progErr = true := rfl
@[simp] theorem refuse_inChunk : (refuse st s).inChunk = s.inChunk := rfl
@[simp] theorem refuse_chunkMark : (refuse st s).chunkMark = s.chunkMark := rfl
@[simp] theorem refuse_out : (refuse st s).out = s.out := rfl
@[simp] theorem refuse_rsp : (refuse st s).rsp = s.rsp ++ [⟨st, [0]⟩] := rfl
@[simp] theorem refuse_offers : (refuse st s).offers = s.offers := rfl
@[simp] theorem refuse_outStall : (refuse st s).outStall = s.outStall := rfl

@[simp] theorem enterErrored_st : (enterErrored c s).st = .errored := rfl
@[simp] theorem enterErrored_cancelReq : (enterErrored c s).cancelReq = s.cancelReq := rfl
@[simp] theorem enterErrored_carry : (enterErrored c s).carry = s.carry := rfl
@[simp] theorem enterErrored_ring : (enterErrored c s).ring = s.ring := rfl
@[simp] theorem enterErrored_progErr : (enterErrored c s).progErr = s.progErr := rfl
@[simp] theorem enterErrored_inChunk : (enterErrored c s).inChunk = s.inChunk := rfl
@[simp] theorem enterErrored_chunkMark : (enterErrored c s).chunkMark = s.chunkMark := rfl
@[simp] theorem enterErrored_out : (enterErrored c s).out = s.out ++ [.error .sourceError true c] := rfl
@[simp] theorem enterErrored_rsp : (enterErrored c s).rsp = s.rsp := rfl
@[simp] theorem enterErrored_offers : (enterErrored c s).offers = s.offers := rfl
@[simp] theorem enterErrored_outStall : (enterErrored c s).outStall = s.outStall := rfl

end Primitives

section LoopTop
variable (s : State)

/-- Loop top writes `st` and nothing else. -/
theorem loopTop_eq : loopTop s =
    { s with st := if s.st = .reading ∧ s.cancelReq = true then .cancelled else s.st } := by
  unfold loopTop; split <;> rfl

@[simp] theorem loopTop_st :
    (loopTop s).st = if s.st = .reading ∧ s.cancelReq = true then .cancelled else s.st := by rw [loopTop_eq]
@[simp] theorem loopTop_cancelReq : (loopTop s).cancelReq = s.cancelReq := by rw [loopTop_eq]
@[simp] theorem loopTop_carry : (loopTop s).carry = s.carry := by rw [loopTop_eq]
@[simp] theorem loopTop_ring : (loopTop s).ring = s.ring := by rw [loopTop_eq]
@[simp] theorem loopTop_progErr : (loopTop s).progErr = s.progErr := by rw [loopTop_eq]
@[simp] theorem loopTop_chunkMark : (loopTop s).chunkMark = s.chunkMark := by rw [loopTop_eq]
@[simp] theorem loopTop_inChunk : (loopTop s).inChunk = s.inChunk := by rw [loopTop_eq]; rfl
@[simp] theorem loopTop_out : (loopTop s).out = s.out := by rw [loopTop_eq]
@[simp] theorem loopTop_rsp : (loopTop s).rsp = s.rsp := by rw [loopTop_eq]
@[simp] theorem loopTop_offers : (loopTop s).offers = s.offers := by rw [loopTop_eq]
@[simp] theorem loopTop_outStall : (loopTop s).outStall = s.outStall := by rw [loopTop_eq]

/-- With no cancellation loop top does nothing. -/
theorem loopTop_of_clear (h : s.cancelReq = false) : loopTop s = s := by simp [loopTop, h]

/-- The end of a chunk writes `in_chunk` and, if a cancellation waits, `st`. -/
theorem endChunk_eq : endChunk s =
    { s with chunkMark := none, st := if s.st = .reading ∧ s.cancelReq = true then .cancelled else s.st } := by
  unfold endChunk; rw [loopTop_eq]

/-- In a chunk the arrival of an ending beat ends it; between chunks it does nothing. -/
theorem endOpenChunk_eq : endOpenChunk s =
    { s with chunkMark := none,
             st := if s.inChunk = true ∧ s.st = .reading ∧ s.cancelReq = true then .cancelled else s.st } := by
  unfold endOpenChunk
  rw [endChunk_eq]
  by_cases h : s.inChunk = true
  · simp [h]
  · have hm := chunkMark_of_inChunk_false (by simpa using h)
    cases s; simp_all

end LoopTop

section Commit
variable (s : State) (blk chunk : List Byte)

/-- A frame commit writes the ring and the output stream and nothing else (R161). -/
theorem processBlock_eq : processBlock s blk =
    { s with ring := (processBlock s blk).ring, out := (processBlock s blk).out } := by
  unfold processBlock; split <;> rfl

/-- What a frame commit can be: a push on every window with its SAMPLE, or a report of a short block (R161, R201). -/
theorem processBlock_cases :
    (∃ v, decodeFrame blk = .ok v ∧
      processBlock s blk = { s with ring := s.ring.commit v, out := s.out ++ [.sample v] }) ∨
    (blk.length < Config.frameSize ∧
      processBlock s blk = { s with out := s.out ++ [.error .frameTooShort false (BitVec.ofNat 8 blk.length)] }) := by
  unfold processBlock
  by_cases h : blk.length < Config.frameSize
  · right; simp [decodeFrame, h, emit]
  · left; exact ⟨⟨frameWord blk 0, frameWord blk 1, frameWord blk 2, frameWord blk 3⟩, by simp [decodeFrame, h],
      by simp [decodeFrame, h, emit]⟩

/-- Several frame commits write the ring and the output stream and nothing else. -/
theorem foldl_processBlock_eq (bs : List (List Byte)) : ∀ s : State,
    bs.foldl processBlock s =
      { s with ring := (bs.foldl processBlock s).ring, out := (bs.foldl processBlock s).out } := by
  induction bs with
  | nil => intro s; rfl
  | cons b bs ih => intro s; rw [List.foldl_cons, ih, processBlock_eq]

/-- Feeding bytes writes the carry, the ring and the output stream and nothing else (R167). -/
theorem feedChunk_eq : feedChunk chunk s =
    { s with carry := (feed s.carry chunk).2, ring := (feedChunk chunk s).ring, out := (feedChunk chunk s).out } := by
  unfold feedChunk; rw [foldl_processBlock_eq]

@[simp] theorem feedChunk_carry : (feedChunk chunk s).carry = (feed s.carry chunk).2 := by rw [feedChunk_eq]
@[simp] theorem feedChunk_st : (feedChunk chunk s).st = s.st := by rw [feedChunk_eq]
@[simp] theorem feedChunk_cancelReq : (feedChunk chunk s).cancelReq = s.cancelReq := by rw [feedChunk_eq]
@[simp] theorem feedChunk_progErr : (feedChunk chunk s).progErr = s.progErr := by rw [feedChunk_eq]
@[simp] theorem feedChunk_chunkMark : (feedChunk chunk s).chunkMark = s.chunkMark := by rw [feedChunk_eq]
@[simp] theorem feedChunk_inChunk : (feedChunk chunk s).inChunk = s.inChunk := by rw [feedChunk_eq]; rfl
@[simp] theorem feedChunk_rsp : (feedChunk chunk s).rsp = s.rsp := by rw [feedChunk_eq]
@[simp] theorem feedChunk_offers : (feedChunk chunk s).offers = s.offers := by rw [feedChunk_eq]
@[simp] theorem feedChunk_outStall : (feedChunk chunk s).outStall = s.outStall := by rw [feedChunk_eq]

end Commit

section Environment
variable (m : ConsumerMove) (s : State)

/-- The consumer's moves write `outStall` and nothing else. -/
theorem consume_eq : consume m s = { s with outStall := (consume m s).outStall } := by
  cases m <;> rfl

end Environment

end Sys2Proof.Machine
end

