-- ==== Sys2Proof/Laws/Feed.lean ====
section
/-! SUPPORT. The loop of Feed: enough rounds are enough, and what is left over is shorter than a frame. -/

namespace Sys2Proof.Machine

/-- Below a frame nothing is cut. -/
theorem cutFrames_of_lt (size fuel : Nat) (buf : List Byte) (h : buf.length < size) :
    cutFrames size fuel buf = ([], buf) := by
  cases fuel with
  | zero => rfl
  | succ n => simp [cutFrames, Nat.not_le.mpr h]

/-- With at least a frame in the buffer, and rounds left, one frame is cut off its front. -/
theorem cutFrames_of_le (size fuel : Nat) (buf : List Byte) (h : size ≤ buf.length) :
    cutFrames size (fuel + 1) buf =
      (buf.take size :: (cutFrames size fuel (buf.drop size)).1, (cutFrames size fuel (buf.drop size)).2) := by
  simp [cutFrames, h]

/-- Any number of rounds from the buffer's length on gives the same result. -/
theorem cutFrames_fuel (size : Nat) (hs : 1 ≤ size) : ∀ (fuel : Nat) (buf : List Byte), buf.length ≤ fuel →
    cutFrames size fuel buf = cutFrames size buf.length buf := by
  intro fuel
  induction fuel using Nat.strong_induction_on with
  | _ fuel ih =>
    intro buf hb
    by_cases h : buf.length < size
    · rw [cutFrames_of_lt _ _ _ h, cutFrames_of_lt _ _ _ h]
    · have hle : size ≤ buf.length := Nat.not_lt.mp h
      obtain ⟨f, rfl⟩ : ∃ f, fuel = f + 1 := ⟨fuel - 1, by omega⟩
      obtain ⟨l, hl⟩ : ∃ l, buf.length = l + 1 := ⟨buf.length - 1, by omega⟩
      have hd : (buf.drop size).length ≤ l := by simp; omega
      rw [cutFrames_of_le _ _ _ hle, hl, cutFrames_of_le _ _ _ hle]
      rw [ih f (by omega) (buf.drop size) (by omega)]
      rcases Nat.lt_or_ge l (f + 1) with hlf | hlf
      · rw [ih l (by omega) (buf.drop size) hd]
      · omega

/-- One round of Feed. -/
theorem feed_of_le (carry chunk : List Byte) (h : Config.frameSize ≤ (carry ++ chunk).length) :
    feed carry chunk =
      ((carry ++ chunk).take Config.frameSize :: (feed [] ((carry ++ chunk).drop Config.frameSize)).1,
        (feed [] ((carry ++ chunk).drop Config.frameSize)).2) := by
  unfold feed
  have h16 : 16 ≤ (carry ++ chunk).length := h
  obtain ⟨l, hl⟩ : ∃ l, (carry ++ chunk).length = l + 1 := ⟨(carry ++ chunk).length - 1, by omega⟩
  have hd : ((carry ++ chunk).drop Config.frameSize).length ≤ l := by
    rw [List.length_drop, hl]; exact Nat.sub_le_of_le_add (by simp)
  rw [hl, cutFrames_of_le _ _ _ h, List.nil_append, cutFrames_fuel Config.frameSize (by decide) l _ hd]

/-- Fewer bytes than a frame stay in the carry. -/
theorem feed_of_lt (carry chunk : List Byte) (h : (carry ++ chunk).length < Config.frameSize) :
    feed carry chunk = ([], carry ++ chunk) := by
  unfold feed; rw [cutFrames_of_lt _ _ _ h]

/-- Feed sees the carry and the chunk only joined together. -/
theorem feed_nil_append (carry chunk : List Byte) : feed carry chunk = feed [] (carry ++ chunk) := by
  unfold feed; rw [List.nil_append]

/-- The length of what is left over. -/
theorem feed_rest_length (carry chunk : List Byte) : (feed carry chunk).2.length ≤ Config.frameSize - 1 := by
  suffices ∀ (n : Nat) (buf : List Byte), buf.length ≤ n → (feed [] buf).2.length ≤ Config.frameSize - 1 by
    rw [feed_nil_append]; exact this _ _ (Nat.le_refl _)
  intro n
  induction n with
  | zero => intro buf h; obtain rfl : buf = [] := List.eq_nil_of_length_eq_zero (by omega); decide
  | succ n ih =>
    intro buf h
    rcases Nat.lt_or_ge buf.length Config.frameSize with hb | hb
    · rw [feed_of_lt _ _ (by simpa using hb)]; simpa using Nat.le_sub_one_of_lt hb
    · rw [feed_of_le _ _ (by simpa using hb)]
      exact ih _ (by rw [List.nil_append, List.length_drop]; simp only [Config.frameSize] at hb ⊢; omega)

end Sys2Proof.Machine
end

