-- ==== Sys2Proof/Laws/Step.lean ====
section
/-! SUPPORT. What exec and step can do, said once: the inversion lemmas of the source meanings, of the choice of an offer,
and of a step. -/

namespace Sys2Proof.Machine

theorem srcEnabled_iff (s : State) :
    s.srcEnabled = true ↔ s.st = .reading ∧ (s.inChunk = true ∨ s.cancelReq = false) := by
  simp [State.srcEnabled]

theorem srcReady_iff (s : State) : s.srcReady = true ↔ s.srcEnabled = true ∧ s.outFull = false := by
  simp [State.srcReady]

/-- The consumer that takes events as they come leaves none held (R244). -/
theorem outFull_of_none (s : State) (h : s.outStall = none) : s.outFull = false := by
  simp [State.outFull, State.outHeld, h]

/-- What a DATA beat does, if it does anything: feed its byte, and close the chunk on `last`. -/
theorem execData_next {last : Bool} {b : Byte} {s t : State} (h : execData last b s = .next t) :
    s.srcEnabled = true ∧
    t = { s with carry := (feed s.carry [b]).2, ring := (feedChunk [b] s).ring, out := (feedChunk [b] s).out,
                 chunkMark := if last then none else some (markAfter b s),
                 st := if last && s.cancelReq then .cancelled else .reading } := by
  unfold execData at h
  by_cases he : s.srcEnabled = true
  · refine ⟨he, ?_⟩
    have hr := ((srcEnabled_iff s).1 he).1
    cases last with
    | false =>
      simp only [he, if_true, Bool.false_eq_true, if_false, Host.Outcome.next.injEq] at h
      rw [← h]
      conv_lhs => rw [feedChunk_eq]
      simp [hr]
    | true =>
      simp only [he, if_true, Host.Outcome.next.injEq] at h
      rw [← h, endChunk_eq]
      conv_lhs => rw [feedChunk_eq]
      simp [hr]
  · simp [he] at h

/-- What a beat that ends the stream does, if it does anything. -/
theorem endStream_next {f : State → State} {s t : State} (h : endStream f s = .next t) :
    s.srcEnabled = true ∧
    ((s.cancelReq = false ∧ t = f { s with chunkMark := none }) ∨
     (s.cancelReq = true ∧ s.inChunk = true ∧ t = { s with chunkMark := none, st := .cancelled })) := by
  unfold endStream at h
  by_cases he : s.srcEnabled = true
  · refine ⟨he, ?_⟩
    obtain ⟨hr, hc⟩ := (srcEnabled_iff s).1 he
    simp only [he, if_true, endOpenChunk_eq, hr] at h
    cases hq : s.cancelReq with
    | false =>
      left
      simp only [hq, Bool.false_eq_true, and_false, if_false, if_true, Host.Outcome.next.injEq] at h
      refine ⟨rfl, ?_⟩
      rw [← h, ← hr]
    | true =>
      have hi : s.inChunk = true := by simpa [hq] using hc
      right
      simp only [hq, hi, and_self, if_true, reduceCtorEq, if_false, Host.Outcome.next.injEq] at h
      exact ⟨rfl, hi, h.symm⟩
  · simp [he] at h

/-- What a transaction-level chunk does, if it does anything. -/
theorem execChunk_next {bytes : List Byte} {s t : State} (h : execChunk bytes s = .next t) :
    s.Idle ∧ t = feedChunk bytes s := by
  unfold execChunk at h
  by_cases he : (s.srcEnabled && !s.inChunk) = true
  · have hp := he
    rw [Bool.and_eq_true, srcEnabled_iff] at hp
    obtain ⟨⟨hr, hc⟩, hi⟩ := hp
    have hi : s.inChunk = false := by simpa using hi
    have hq : s.cancelReq = false := by simpa [hi] using hc
    refine ⟨⟨hr, hi, hq⟩, ?_⟩
    simp only [he, if_true, Host.Outcome.next.injEq] at h
    rw [← h, loopTop_of_clear _ (by simp [hq])]
  · simp [he] at h

/-- The offer chosen is one that can be taken on a port with nothing waiting before it; the others stay, in order. -/
theorem select_some {s : State} : ∀ {os : List Offer} {cw sw : Bool} {o : Offer} {rest : List Offer},
    s.select cw sw os = some (o, rest) →
    (∃ cw' sw', s.canTake cw' sw' o = true) ∧ ∃ pre post, os = pre ++ o :: post ∧ rest = pre ++ post := by
  intro os
  induction os with
  | nil => intro cw sw o rest h; simp [State.select] at h
  | cons x xs ih =>
    intro cw sw o rest h
    unfold State.select at h
    by_cases hx : s.canTake cw sw x = true
    · simp only [hx, if_true, Option.some.injEq, Prod.mk.injEq] at h
      obtain ⟨rfl, rfl⟩ := h
      exact ⟨⟨cw, sw, hx⟩, [], xs, rfl, rfl⟩
    · simp only [hx, Bool.false_eq_true, if_false] at h
      split at h
      · rename_i p rest' hs
        simp only [Option.some.injEq, Prod.mk.injEq] at h
        obtain ⟨rfl, rfl⟩ := h
        obtain ⟨hc, pre, post, rfl, rfl⟩ := ih hs
        exact ⟨hc, x :: pre, post, rfl, rfl⟩
      · simp at h

/-- The offer of a step can be taken in the state it is taken in. -/
theorem nextOffer_some {s : State} {o : Offer} {rest : List Offer} (h : s.nextOffer = some (o, rest)) :
    (∃ cw sw, s.canTake cw sw o = true) ∧ ∃ pre post, s.offers = pre ++ o :: post ∧ rest = pre ++ post :=
  select_some h

/-- A first offer that can be taken is the one that is. -/
theorem nextOffer_head {s : State} {o : Offer} {os : List Offer} (ho : s.offers = o :: os)
    (hc : s.canTake false false o = true) : s.nextOffer = some (o, os) := by
  unfold State.nextOffer; rw [ho]; unfold State.select; simp [hc]

/-- A step takes the next offer. -/
theorem step_of_nextOffer {s : State} {o : Offer} {rest : List Offer} (h : s.nextOffer = some (o, rest)) :
    step s = takeOffer o rest s := by
  unfold step; rw [h]

/-- A step that answers a next state took an offer. -/
theorem step_next {s t : State} (h : step s = .next t) :
    ∃ o rest, s.nextOffer = some (o, rest) ∧ takeOffer o rest s = .next t := by
  unfold step at h
  split at h
  · rename_i o rest ho; exact ⟨o, rest, ho, h⟩
  · simp at h

end Sys2Proof.Machine
end

