-- ==== Sys2Proof/Laws/Bits.lean ====
section
/-! SUPPORT. Words as numbers: concatenation, the little-endian group, and the fields of a command word. -/

namespace Sys2Proof.Machine

/-- Concatenation as arithmetic. -/
theorem append_toNat {m n : Nat} (x : BitVec m) (y : BitVec n) : (x ++ y).toNat = 2 ^ n * x.toNat + y.toNat := by
  rw [BitVec.toNat_append, ← Nat.shiftLeft_add_eq_or_of_lt y.isLt, Nat.shiftLeft_eq, Nat.mul_comm]

/-- A value placed above `k` bits of another is a sum. -/
theorem or_shiftLeft (b a k : Nat) (h : b < 2 ^ k) : b ||| a <<< k = 2 ^ k * a + b := by
  rw [Nat.or_comm, ← Nat.shiftLeft_add_eq_or_of_lt h, Nat.shiftLeft_eq, Nat.mul_comm]

/-- A byte shifted within 32 bits loses nothing. -/
theorem shifted_byte (b : Byte) (k : Nat) (hk : k ≤ 24) :
    (b.setWidth 32 <<< k : U32).toNat = b.toNat <<< k := by
  have hb : b.toNat % 2 ^ 32 = b.toNat := Nat.mod_eq_of_lt (by have := b.isLt; omega)
  rw [BitVec.toNat_shiftLeft, BitVec.toNat_setWidth, hb]
  refine Nat.mod_eq_of_lt ?_
  rw [Nat.shiftLeft_eq]
  calc b.toNat * 2 ^ k < 2 ^ 8 * 2 ^ k := Nat.mul_lt_mul_of_pos_right b.isLt (Nat.two_pow_pos k)
    _ = 2 ^ (8 + k) := (Nat.pow_add 2 8 k).symm
    _ ≤ 2 ^ 32 := Nat.pow_le_pow_right (by decide) (by omega)

/-- The little-endian group as arithmetic (R51, R101). -/
theorem leWord_toNat (b0 b1 b2 b3 : Byte) :
    (leWord b0 b1 b2 b3).toNat = b0.toNat + 256 * b1.toNat + 65536 * b2.toNat + 16777216 * b3.toNat := by
  have h0 := b0.isLt
  have h1 := b1.isLt
  have h2 := b2.isLt
  have e0 : (b0.setWidth 32 : U32).toNat = b0.toNat := by
    rw [BitVec.toNat_setWidth, Nat.mod_eq_of_lt (by omega)]
  unfold leWord
  rw [BitVec.toNat_or, BitVec.toNat_or, BitVec.toNat_or, e0, shifted_byte b1 8 (by decide),
    shifted_byte b2 16 (by decide), shifted_byte b3 24 (by decide), or_shiftLeft _ _ 8 h0,
    or_shiftLeft _ _ 16 (by omega), or_shiftLeft _ _ 24 (by omega)]
  omega

/-- The fields of a command word as numbers (R72). -/
theorem cmdFields_toNat (cmd : BitVec 32) :
    (cmdFields cmd).op.toNat = cmd.toNat % 16 ∧ (cmdFields cmd).ch.toNat = cmd.toNat / 16 % 4 ∧
    (cmdFields cmd).en.toNat = cmd.toNat / 64 % 2 ∧ (cmdFields cmd).len.toNat = cmd.toNat / 128 % 32 ∧
    (cmdFields cmd).rsvd.toNat = cmd.toNat / 4096 := by
  simp [cmdFields, Nat.shiftRight_eq_div_pow]
  have := cmd.isLt
  omega

/-- A command word as a number (R72, R73). -/
theorem cmdWord_toNat (op : BitVec 4) (ch : BitVec 2) (en : BitVec 1) (len : BitVec 5) :
    (cmdWord op ch en len).toNat = op.toNat + 16 * ch.toNat + 64 * en.toNat + 128 * len.toNat := by
  have := op.isLt
  have := ch.isLt
  have := en.isLt
  have := len.isLt
  simp only [cmdWord, BitVec.toNat_ofNat]
  omega

/-- No two-bit channel is out of range at the default parameters (R74 (e)). -/
theorem channelOf_ok (ch : BitVec 2) : channelOf ch = .ok ⟨ch.toNat, ch.isLt⟩ := by
  unfold channelOf; rw [dif_pos ch.isLt]

end Sys2Proof.Machine
end

