-- ==== Sys2Proof/Laws/Autoscale.lean ====
section
/-! SUPPORT. The reducer and the display range at the block's parameters. -/

namespace Sys2Proof.Machine

/-- `YQ` at the defaults (R141). -/
theorem topQ_params : Params.topQ Config.params = 85899345920 := by decide

/-- The pad at the defaults (R141, R143). -/
theorem padQ_params (mn mx : Int) : padQ Config.params mn mx = if mx = mn then 20 else mx - mn := by
  have h1 : ((Config.params.padNum : Nat) : Int) = 1 := rfl
  have h2 : ((Config.params.padDen : Nat) : Int) = 20 := rfl
  have h3 : ((Config.params.minPad : Nat) : Int) = 1 := rfl
  unfold padQ
  rw [h1, h2, h3, Int.one_mul]
  by_cases h : mx = mn
  · simp [h]
  · rw [if_neg (by omega), if_neg h]

/-- The display range of a non-empty window at the defaults (R141). -/
theorem rangeOf_cons (x : U32) (xs : List U32) : rangeOf Config.params (x :: xs) true =
    (clamp (20 * leastOf x xs - padQ Config.params (leastOf x xs) (greatestOf x xs)) 0 85899345920,
      clamp (20 * greatestOf x xs + padQ Config.params (leastOf x xs) (greatestOf x xs)) 0 85899345920) := rfl

theorem foldl_min_spec (xs : List U32) : ∀ m : Int,
    (xs.foldl (fun m v => min m (v.toNat : Int)) m = m ∨
      ∃ v ∈ xs, xs.foldl (fun m v => min m (v.toNat : Int)) m = v.toNat) ∧
    xs.foldl (fun m v => min m (v.toNat : Int)) m ≤ m ∧
    ∀ v ∈ xs, xs.foldl (fun m v => min m (v.toNat : Int)) m ≤ v.toNat := by
  induction xs with
  | nil => intro m; simp
  | cons y ys ih =>
    intro m
    simp only [List.foldl_cons]
    obtain ⟨a, b, c⟩ := ih (min m y.toNat)
    refine ⟨?_, by omega, ?_⟩
    · rcases a with a | ⟨v, hv, a⟩
      · rcases min_choice m (y.toNat : Int) with h | h
        · left; rw [a, h]
        · right; exact ⟨y, by simp, by rw [a, h]⟩
      · right; exact ⟨v, by simp [hv], a⟩
    · intro v hv
      rcases List.mem_cons.1 hv with rfl | hv
      · omega
      · exact c v hv

theorem foldl_max_spec (xs : List U32) : ∀ m : Int,
    (xs.foldl (fun m v => max m (v.toNat : Int)) m = m ∨
      ∃ v ∈ xs, xs.foldl (fun m v => max m (v.toNat : Int)) m = v.toNat) ∧
    m ≤ xs.foldl (fun m v => max m (v.toNat : Int)) m ∧
    ∀ v ∈ xs, (v.toNat : Int) ≤ xs.foldl (fun m v => max m (v.toNat : Int)) m := by
  induction xs with
  | nil => intro m; simp
  | cons y ys ih =>
    intro m
    simp only [List.foldl_cons]
    obtain ⟨a, b, c⟩ := ih (max m y.toNat)
    refine ⟨?_, by omega, ?_⟩
    · rcases a with a | ⟨v, hv, a⟩
      · rcases max_choice m (y.toNat : Int) with h | h
        · left; rw [a, h]
        · right; exact ⟨y, by simp, by rw [a, h]⟩
      · right; exact ⟨v, by simp [hv], a⟩
    · intro v hv
      rcases List.mem_cons.1 hv with rfl | hv
      · omega
      · exact c v hv

/-- `leastOf` is a value of the window, and none is less (R142). -/
theorem leastOf_spec (x : U32) (xs : List U32) :
    (∃ v ∈ x :: xs, leastOf x xs = v.toNat) ∧ ∀ v ∈ x :: xs, leastOf x xs ≤ v.toNat := by
  obtain ⟨a, b, c⟩ := foldl_min_spec xs x.toNat
  refine ⟨?_, ?_⟩
  · rcases a with a | ⟨v, hv, a⟩
    · exact ⟨x, by simp, a⟩
    · exact ⟨v, by simp [hv], a⟩
  · intro v hv
    rcases List.mem_cons.1 hv with rfl | hv
    · exact b
    · exact c v hv

/-- `greatestOf` is a value of the window, and none is greater (R142). -/
theorem greatestOf_spec (x : U32) (xs : List U32) :
    (∃ v ∈ x :: xs, greatestOf x xs = v.toNat) ∧ ∀ v ∈ x :: xs, (v.toNat : Int) ≤ greatestOf x xs := by
  obtain ⟨a, b, c⟩ := foldl_max_spec xs x.toNat
  refine ⟨?_, ?_⟩
  · rcases a with a | ⟨v, hv, a⟩
    · exact ⟨x, by simp, a⟩
    · exact ⟨v, by simp [hv], a⟩
  · intro v hv
    rcases List.mem_cons.1 hv with rfl | hv
    · exact b
    · exact c v hv

/-- A bound on the scale fits its word (R88). -/
theorem boundWord_toNat (q : Int) (h0 : 0 ≤ q) (h1 : q ≤ 85899345920) : ((boundWord q).toNat : Int) = q := by
  unfold boundWord
  simp [BitVec.toNat_setWidth, BitVec.toNat_ofInt]
  omega

end Sys2Proof.Machine
end

