-- ==== Sys2Proof/Laws/Effects.lean ====
section
/-! SUPPORT. Everything a step can do, said once: `step_effect` lists the effects, each with the offer taken, the condition
and the whole next state, so that claims about every step are a case analysis on `Effect` and unfold no meaning. -/

namespace Sys2Proof.Machine

/-- What fed bytes send and store: some samples, each committed to the ring and sent, in order (R167, R161). -/
theorem feedChunk_samples (chunk : List Byte) (s : State) : ∃ vs : List Sample,
    (feedChunk chunk s).ring = vs.foldl RingFifo.commit s.ring ∧
    (feedChunk chunk s).out = s.out ++ vs.map OutEvent.sample ∧
    (feed s.carry chunk).1.map decodeFrame = vs.map Except.ok := by
  have frames : ∀ (n : Nat) (buf : List Byte), buf.length ≤ n → ∀ f ∈ (feed [] buf).1, ¬ f.length < Config.frameSize := by
    intro n
    induction n with
    | zero =>
      intro buf h f hf
      rw [List.eq_nil_of_length_eq_zero (Nat.le_zero.1 h), feed_of_lt _ _ (by decide)] at hf
      simp at hf
    | succ n ih =>
      intro buf h f hf
      rcases Nat.lt_or_ge buf.length Config.frameSize with hb | hb
      · rw [feed_of_lt _ _ (by simpa using hb)] at hf; simp at hf
      · rw [feed_of_le _ _ (by simpa using hb)] at hf
        rcases List.mem_cons.1 hf with rfl | hf
        · simp only [List.nil_append, List.length_take]; omega
        · refine ih _ ?_ f hf
          have hb16 : 16 ≤ buf.length := hb
          rw [List.nil_append, List.length_drop]; simp only [Config.frameSize]; omega
  have run : ∀ (fs : List (List Byte)) (u : State), (∀ f ∈ fs, ¬ f.length < Config.frameSize) → ∃ vs : List Sample,
      (fs.foldl processBlock u).ring = vs.foldl RingFifo.commit u.ring ∧
      (fs.foldl processBlock u).out = u.out ++ vs.map OutEvent.sample ∧
      fs.map decodeFrame = vs.map Except.ok := by
    intro fs
    induction fs with
    | nil => intro u _; exact ⟨[], rfl, by simp, rfl⟩
    | cons f fs ih =>
      intro u hfs
      rcases processBlock_cases u f with ⟨v, hv, e⟩ | ⟨hl, _⟩
      · obtain ⟨vs, h1, h2, h3⟩ := ih (processBlock u f) (fun g hg => hfs g (List.mem_cons_of_mem _ hg))
        refine ⟨v :: vs, ?_, ?_, ?_⟩
        · rw [List.foldl_cons, h1, e]; rfl
        · rw [List.foldl_cons, h2, e]; simp
        · rw [List.map_cons, hv, h3]; rfl
      · exact absurd hl (hfs f (by simp))
  rw [feed_nil_append]
  obtain ⟨vs, h1, h2, h3⟩ := run (feed s.carry chunk).1 { s with carry := (feed s.carry chunk).2 }
    (by rw [feed_nil_append]; exact frames _ _ (Nat.le_refl _))
  exact ⟨vs, h1, h2, by rw [← feed_nil_append]; exact h3⟩

/-- The effects of a step on a state: the offer taken and the whole next state (R11). `os` are the offers left standing. -/
inductive Effect (s : State) : Offer → State → Prop
  /-- R230. -/
  | reset (os : List Offer) :
      Effect s .rst { State.reset with offers := os, outStall := s.outStall.map fun _ => 0 }
  /-- R244. -/
  | consumed (m : ConsumerMove) (os : List Offer) :
      Effect s (.consumer m) { s with offers := os, outStall := (consume m s).outStall }
  /-- R204. -/
  | illegal (cmd p e) (os : List Offer) (h : decodeCommand cmd p = .error e) :
      Effect s (.command cmd p) { s with offers := os, progErr := true, rsp := s.rsp ++ [⟨.illegalCmd, [0]⟩] }
  /-- R164, R205. -/
  | startRefused (cmd p) (os : List Offer) (h : decodeCommand cmd p = .ok .start) (hs : s.st ≠ .opened) :
      Effect s (.command cmd p) { s with offers := os, progErr := true, rsp := s.rsp ++ [⟨.illegalState, [0]⟩] }
  /-- R164. -/
  | started (cmd p) (os : List Offer) (h : decodeCommand cmd p = .ok .start) (hs : s.st = .opened) :
      Effect s (.command cmd p)
        { s with offers := os, st := if s.cancelReq then .cancelled else .reading, rsp := s.rsp ++ [⟨.ok, [0]⟩] }
  /-- R165. -/
  | cancelled (cmd p) (os : List Offer) (h : decodeCommand cmd p = .ok .cancel) :
      Effect s (.command cmd p)
        { s with offers := os, cancelReq := true, rsp := s.rsp ++ [⟨.ok, [0]⟩],
                 st := if s.st = .reading ∧ s.inChunk = false then .cancelled else s.st }
  /-- R123. -/
  | snapshot (cmd p ch ds) (os : List Offer) (h : decodeCommand cmd p = .ok (.snapshot ch))
      (hd : ds = (snapshotOf Config.windowCapacity (s.win ch)).map entryWord) :
      Effect s (.command cmd p) { s with offers := os, rsp := s.rsp ++ [⟨.ok, ds⟩] }
  /-- R140. -/
  | range (cmd p ch en ds) (os : List Offer) (h : decodeCommand cmd p = .ok (.range ch en))
      (hd : ds = [boundWord (rangeOf Config.params (s.win ch) en).1, boundWord (rangeOf Config.params (s.win ch) en).2]) :
      Effect s (.command cmd p) { s with offers := os, rsp := s.rsp ++ [⟨.ok, ds⟩] }
  /-- R166. -/
  | status (cmd p ds) (os : List Offer) (h : decodeCommand cmd p = .ok .status) (hd : ds = [s.statusWord]) :
      Effect s (.command cmd p) { s with offers := os, rsp := s.rsp ++ [⟨.ok, ds⟩] }
  /-- R172, R205. -/
  | blockRefused (cmd p len q) (os : List Offer) (h : decodeCommand cmd p = .ok (.block len q)) (hi : s.inChunk = false)
      (hf : s.outFull = false) (hs : s.st ≠ .reading) :
      Effect s (.command cmd p) { s with offers := os, progErr := true, rsp := s.rsp ++ [⟨.illegalState, [0]⟩] }
  /-- R172, R201. -/
  | blockShort (cmd p len q) (n : Nat) (os : List Offer) (h : decodeCommand cmd p = .ok (.block len q))
      (hi : s.inChunk = false) (hf : s.outFull = false) (hs : s.st = .reading) (hn : n < 16) :
      Effect s (.command cmd p)
        { s with offers := os, out := s.out ++ [.error .frameTooShort false (BitVec.ofNat 8 n)],
                 st := if s.cancelReq then .cancelled else .reading, rsp := s.rsp ++ [⟨.ok, [0]⟩] }
  /-- R172, R161. -/
  | blockFull (cmd p len q v) (os : List Offer) (h : decodeCommand cmd p = .ok (.block len q)) (hi : s.inChunk = false)
      (hf : s.outFull = false) (hs : s.st = .reading) :
      Effect s (.command cmd p)
        { s with offers := os, ring := s.ring.commit v, out := s.out ++ [.sample v],
                 st := if s.cancelReq then .cancelled else .reading, rsp := s.rsp ++ [⟨.ok, [0]⟩] }
  /-- R91. -/
  | data (b last d) (vs : List Sample) (os : List Offer) (h : decodeBeat b = .data last d) (hp : s.Pulling)
      (hf : s.outFull = false) :
      Effect s (.beat b)
        { s with offers := os, carry := (feed s.carry [d]).2, ring := vs.foldl RingFifo.commit s.ring,
                 out := s.out ++ vs.map OutEvent.sample, chunkMark := if last then none else some (markAfter d s),
                 st := if last && s.cancelReq then .cancelled else .reading }
  /-- R168. -/
  | closed (b) (os : List Offer) (h : decodeBeat b = .eos) (hs : s.st = .reading) (hc : s.cancelReq = false)
      (hf : s.outFull = false) :
      Effect s (.beat b) { s with offers := os, chunkMark := none, st := .closed }
  /-- R176. -/
  | errored (b cause) (os : List Offer) (h : decodeBeat b = .err cause ∨ decodeBeat b = .srcRsvd cause)
      (hs : s.st = .reading) (hc : s.cancelReq = false) (hf : s.outFull = false) :
      Effect s (.beat b) { s with offers := os, chunkMark := none, st := .errored,
                                  out := s.out ++ [.error .sourceError true cause] }
  /-- R93: a beat that is not accepted. -/
  | endedByBeat (b) (h : ∀ l d, decodeBeat b ≠ .data l d) (hs : s.st = .reading) (hc : s.cancelReq = true)
      (hi : s.inChunk = true) (hf : s.outFull = false) :
      Effect s (.beat b) { s with chunkMark := none, st := .cancelled }
  /-- R167. -/
  | chunk (bytes) (vs : List Sample) (os : List Offer) (hi : s.Idle) (hf : s.outFull = false) :
      Effect s (.chunk bytes)
        { s with offers := os, carry := (feed s.carry bytes).2, ring := vs.foldl RingFifo.commit s.ring,
                 out := s.out ++ vs.map OutEvent.sample }

theorem blockBytes_length (len : BitVec 5) (p : BitVec 128) : (blockBytes len p).length = len.toNat := by
  simp [blockBytes]

/-- A decoded BLOCK is no longer than a frame (R74 (d)). -/
theorem decode_block_len {cmd : BitVec 32} {p q : BitVec 128} {len : BitVec 5}
    (h : decodeCommand cmd p = .ok (.block len q)) : len.toNat ≤ 16 := by
  unfold decodeCommand at h
  split at h
  · cases h
  · unfold decodeFields at h
    simp only [channelOf_ok] at h
    repeat' split at h
    all_goals cases h
    assumption

/-- The control port decodes to no source event. -/
theorem decode_command_kind {cmd : BitVec 32} {p : BitVec 128} {i : Instr} (h : decodeCommand cmd p = .ok i) :
    i = .start ∨ i = .cancel ∨ (∃ ch, i = .snapshot ch) ∨ (∃ ch en, i = .range ch en) ∨ i = .status ∨
      ∃ len q, i = .block len q := by
  unfold decodeCommand at h
  split at h
  · cases h
  · unfold decodeFields at h
    simp only [channelOf_ok] at h
    repeat' split at h
    all_goals cases h
    all_goals simp

/-- The source port decodes to source events only. -/
theorem decode_beat_kind (b : BitVec 11) :
    (∃ l d, decodeBeat b = .data l d) ∨ decodeBeat b = .eos ∨ (∃ c, decodeBeat b = .err c) ∨
      ∃ c, decodeBeat b = .srcRsvd c := by
  unfold decodeBeat
  split <;> simp

/-- `ctl_ready` does not depend on the payload. -/
theorem ctlReady_block {s : State} {cmd : BitVec 32} {p q : BitVec 128} {len : BitVec 5}
    (h : decodeCommand cmd p = .ok (.block len q)) :
    s.ctlReady cmd = (!s.inChunk && !s.outFull) := by
  have h0 : decodeCommand cmd 0 = .ok (.block len 0) := by
    unfold decodeCommand at h ⊢
    split at h
    · cases h
    · rename_i hr
      rw [if_neg hr]
      unfold decodeFields at h ⊢
      simp only [channelOf_ok] at h ⊢
      repeat' split at h
      all_goals cases h
      simp_all
  unfold State.ctlReady
  rw [h0]

/-- The effect of a command word that the control port takes. -/
theorem takeCommand_effect {cmd : BitVec 32} {p : BitVec 128} {os : List Offer} {s t : State}
    (hr : s.ctlReady cmd = true) (h : takeCommand cmd p { s with offers := os } = .next t) :
    Effect s (.command cmd p) t := by
  unfold takeCommand at h
  split at h
  · rename_i i hi
    rcases decode_command_kind hi with rfl | rfl | ⟨ch, rfl⟩ | ⟨ch, en, rfl⟩ | rfl | ⟨len, q, rfl⟩
    · simp only [exec, execStart] at h
      split at h
      · rename_i hs; cases h; exact .startRefused cmd p os hi hs
      · rename_i hs
        cases h
        have hs : s.st = .opened := by simpa using hs
        have := Effect.started cmd p os hi hs
        rw [loopTop_eq]
        simpa [respond] using this
    · simp only [exec, execCancel] at h
      have := Effect.cancelled cmd p os hi (s := s)
      split at h
      · rename_i hs
        have hs : s.st = .reading ∧ s.inChunk = false := hs
        cases h; rw [if_pos hs] at this; exact this
      · rename_i hs
        have hs : ¬ (s.st = .reading ∧ s.inChunk = false) := hs
        cases h; rw [if_neg hs] at this; exact this
    · cases h; exact .snapshot cmd p ch _ os hi rfl
    · cases h; exact .range cmd p ch en _ os hi rfl
    · cases h; exact .status cmd p _ os hi rfl
    · have hl := decode_block_len hi
      rw [ctlReady_block hi] at hr
      have hr' : s.inChunk = false ∧ s.outFull = false := by simpa using hr
      obtain ⟨hc, hf⟩ := hr'
      simp only [exec, execBlock] at h
      rw [if_neg (Nat.not_lt.mpr hl), if_neg (by simp [hc])] at h
      split at h
      · rename_i hs; cases h; exact .blockRefused cmd p len q os hi hc hf hs
      · rename_i hs
        have hs : s.st = .reading := by simpa using hs
        cases h
        rcases processBlock_cases { s with offers := os } (blockBytes len q) with ⟨v, _, e⟩ | ⟨hn, e⟩
        · have := Effect.blockFull cmd p len q v os hi hc hf hs
          rw [e, loopTop_eq]; simpa [respond, hs] using this
        · have := Effect.blockShort cmd p len q _ os hi hc hf hs hn
          rw [e, loopTop_eq]; simpa [respond, hs] using this
  · rename_i e he; cases h; exact .illegal cmd p e os he

/-- The effect of a beat that a ready source port takes or turns away. -/
theorem takeBeat_effect {b : BitVec 11} {os : List Offer} {s t : State} (hf : s.outFull = false)
    (h : takeBeat b os s = .next t) : Effect s (.beat b) t := by
  unfold takeBeat at h
  rcases decode_beat_kind b with ⟨l, d, hb⟩ | hb | ⟨c, hb⟩ | ⟨c, hb⟩
  · rw [hb] at h
    simp only [State.acceptsBeat, if_true, exec] at h
    obtain ⟨he, e⟩ := execData_next h
    obtain ⟨vs, h1, h2, _⟩ := feedChunk_samples [d] { s with offers := os }
    rw [h1, h2] at e
    rw [e]
    exact .data b l d vs os hb ((srcEnabled_iff _).1 he) hf
  all_goals
    rw [hb] at h
    by_cases ha : s.acceptsBeat (decodeBeat b) = true
    · have ha' : (endOpenChunk s).st = .reading := by simpa [State.acceptsBeat, hb] using ha
      rw [← hb, if_pos ha] at h
      rw [hb] at h
      simp only [exec, execEos, execErr, execSrcRsvd] at h
      obtain ⟨he, ⟨hq, e⟩ | ⟨hq, hi, e⟩⟩ := endStream_next h
      · have hs := ((srcEnabled_iff _).1 he).1
        rw [e]
        first
          | exact .closed b os hb hs hq hf
          | exact .errored b c os (Or.inl hb) hs hq hf
          | exact .errored b c os (Or.inr hb) hs hq hf
      · have hs : s.st = .reading := ((srcEnabled_iff _).1 he).1
        have hq' : s.cancelReq = true := hq
        have hi' : s.inChunk = true := hi
        rw [endOpenChunk_eq] at ha'
        simp [hs, hq', hi'] at ha'
    · rw [← hb, if_neg ha] at h
      rw [hb] at h
      simp only [exec, execEos, execErr, execSrcRsvd] at h
      obtain ⟨he, ⟨hq, e⟩ | ⟨hq, hi, e⟩⟩ := endStream_next h
      · exfalso
        apply ha
        have hs := ((srcEnabled_iff _).1 he).1
        simp [State.acceptsBeat, hb, endOpenChunk_eq, hs, hq]
      · rw [e]
        exact .endedByBeat b (by simp [hb]) ((srcEnabled_iff _).1 he).1 hq hi hf

/-- THE INVERSION OF STEP: a step that answers a next state took an offer and had one of the effects. -/
theorem step_effect {s t : State} (h : step s = .next t) :
    ∃ o rest, s.nextOffer = some (o, rest) ∧ Effect s o t := by
  obtain ⟨o, rest, ho, h⟩ := step_next h
  refine ⟨o, rest, ho, ?_⟩
  obtain ⟨⟨cw, sw, hc⟩, _⟩ := nextOffer_some ho
  cases o with
  | rst => cases h; exact .reset rest
  | command cmd p =>
    have hr : s.ctlReady cmd = true := by
      simp only [State.canTake, Bool.and_eq_true] at hc; exact hc.2
    exact takeCommand_effect hr h
  | beat b =>
    have hr : s.srcReady = true := by
      simp only [State.canTake, Bool.and_eq_true] at hc; exact hc.2
    exact takeBeat_effect ((srcReady_iff s).1 hr).2 h
  | chunk bytes =>
    have hr : s.srcReady = true := by
      simp only [State.canTake, Bool.and_eq_true] at hc; exact hc.1.2
    obtain ⟨hi, e⟩ := execChunk_next h
    obtain ⟨vs, h1, h2, _⟩ := feedChunk_samples bytes { s with offers := rest }
    rw [feedChunk_eq, h1, h2] at e
    rw [e]
    exact .chunk bytes vs rest hi ((srcReady_iff s).1 hr).2
  | consumer m => cases h; rw [consume_eq]; cases m <;> exact .consumed _ rest

end Sys2Proof.Machine
end

