-- ==== Sys2Proof/Laws/PerInstr.lean ====
section
/-! SUPPORT. What holds of every instruction as syntax, one lemma a constructor: its words lie in its row of
spec/opcode_table.json. -/

namespace Sys2Proof.Laws.TableRow

/-- A row's pattern: the port its format names, its `mask` and its `match`. -/
structure Row where
  onControl : Bool
  mask      : Nat
  pattern   : Nat
  deriving DecidableEq, Repr

/-- The rows, copied from spec/opcode_table.json. -/
def rowOf : Instr → Row
  | .start        => ⟨true, 0xFFFFFFFF, 0x00000001⟩
  | .cancel       => ⟨true, 0xFFFFFFFF, 0x00000002⟩
  | .snapshot _   => ⟨true, 0xFFFFFFCF, 0x00000003⟩
  | .range _ _    => ⟨true, 0xFFFFFF8F, 0x00000004⟩
  | .status       => ⟨true, 0xFFFFFFFF, 0x00000005⟩
  | .block _ _    => ⟨true, 0xFFFFF07F, 0x00000006⟩
  | .data _ _     => ⟨false, 0x600, 0x000⟩
  | .eos          => ⟨false, 0x600, 0x200⟩
  | .err _        => ⟨false, 0x600, 0x400⟩
  | .srcRsvd _    => ⟨false, 0x600, 0x600⟩

/-- The words of an instruction match its row. -/
def Statement (i : Instr) : Prop :=
  match encode i with
  | .control cmd _ => (rowOf i).onControl = true ∧ cmd.toNat &&& (rowOf i).mask = (rowOf i).pattern
  | .source beat   => (rowOf i).onControl = false ∧ beat.toNat &&& (rowOf i).mask = (rowOf i).pattern

theorem start : Statement .start := ⟨rfl, by decide⟩
theorem cancel : Statement .cancel := ⟨rfl, by decide⟩
theorem snapshot (ch : Channel) : Statement (.snapshot ch) := by
  have h : ∀ c : Channel, (cmdWord 3 (channelBits c) 0 0).toNat &&& 0xFFFFFFCF = 3 := by decide
  exact ⟨rfl, h ch⟩
theorem range (ch : Channel) (en : Bool) : Statement (.range ch en) := by
  have h : ∀ (c : Channel) (e : Bool), (cmdWord 4 (channelBits c) (bit e) 0).toNat &&& 0xFFFFFF8F = 4 := by decide
  exact ⟨rfl, h ch en⟩
theorem status : Statement .status := ⟨rfl, by decide⟩
theorem block (len : BitVec 5) (payload : BitVec 128) : Statement (.block len payload) := by
  have h : ∀ l : BitVec 5, (cmdWord 6 0 0 l).toNat &&& 0xFFFFF07F = 6 := by decide
  exact ⟨rfl, h len⟩
theorem data (last : Bool) (data : Byte) : Statement (.data last data) := by
  have h : ∀ (l : Bool) (d : Byte), (srcBeat 0 (bit l) d).toNat &&& 0x600 = 0 := by decide
  exact ⟨rfl, h last data⟩
theorem eos : Statement .eos := ⟨rfl, by decide⟩
theorem err (cause : Byte) : Statement (.err cause) := by
  have h : ∀ d : Byte, (srcBeat 2 0 d).toNat &&& 0x600 = 0x400 := by decide
  exact ⟨rfl, h cause⟩
theorem srcRsvd (cause : Byte) : Statement (.srcRsvd cause) := by
  have h : ∀ d : Byte, (srcBeat 3 0 d).toNat &&& 0x600 = 0x600 := by decide
  exact ⟨rfl, h cause⟩

end Sys2Proof.Laws.TableRow
end

