-- ==== Sys2Proof/Laws/Streams.lean ====
section
/-! SUPPORT. Lemmas about the streams and the environment: samples and channel values of appended events, the last values of a
list, one byte fed, the beats that end a stream, and what a step leaves of the offers. -/

namespace Sys2Proof.Machine

theorem samplesOf_append (a b : List OutEvent) : samplesOf (a ++ b) = samplesOf a ++ samplesOf b := by
  induction a with
  | nil => rfl
  | cons x xs ih => cases x <;> simp [samplesOf, ih]

theorem samplesOf_map (vs : List Sample) : samplesOf (vs.map OutEvent.sample) = vs := by
  induction vs with
  | nil => rfl
  | cons x xs ih => simp [samplesOf, ih]

theorem channelValues_append (c : Channel) (a b : List OutEvent) :
    channelValues c (a ++ b) = channelValues c a ++ channelValues c b := by
  induction a with
  | nil => rfl
  | cons x xs ih => cases x <;> simp [channelValues, ih]

theorem channelValues_map (c : Channel) (vs : List Sample) :
    channelValues c (vs.map OutEvent.sample) = vs.map (Sample.ch · c) := by
  induction vs with
  | nil => rfl
  | cons x xs ih => simp [channelValues, ih]

theorem lastN_lastN_append {α : Type} (n : Nat) (xs ys : List α) : lastN n (lastN n xs ++ ys) = lastN n (xs ++ ys) := by
  unfold lastN
  simp only [List.length_append, List.length_drop]
  rw [← List.drop_append_of_le_length (by omega), List.drop_drop]
  congr 1
  omega

/-- A byte that does not complete a frame joins the carry. -/
theorem feed_byte_lt (carry : List Byte) (b : Byte) (h : carry.length < 15) : feed carry [b] = ([], carry ++ [b]) :=
  feed_of_lt _ _ (by simp [Config.frameSize]; omega)

/-- The sixteenth byte completes one frame and empties the carry. -/
theorem feed_byte_full (carry : List Byte) (b : Byte) (h : carry.length = 15) :
    feed carry [b] = ([carry ++ [b]], []) := by
  have hl : (carry ++ [b]).length = Config.frameSize := by simp [Config.frameSize, h]
  rw [feed_of_le _ _ (Nat.le_of_eq hl.symm), List.drop_of_length_le (Nat.le_of_eq hl),
    List.take_of_length_le (Nat.le_of_eq hl), feed_of_lt _ _ (by decide)]
  rfl

/-- The two ways a beat that ends the stream goes in READING (R93). -/
theorem endStream_eq (f : State → State) (s : State) (hr : s.st = .reading) :
    (s.cancelReq = false → endStream f s = .next (f { s with chunkMark := none })) ∧
    (s.cancelReq = true → s.inChunk = true → endStream f s = .next { s with chunkMark := none, st := .cancelled }) := by
  constructor
  · intro h
    have he : s.srcEnabled = true := (srcEnabled_iff s).2 ⟨hr, Or.inr h⟩
    unfold endStream
    rw [if_pos he, endOpenChunk_eq]
    simp [h, hr]
  · intro h h1
    have he : s.srcEnabled = true := (srcEnabled_iff s).2 ⟨hr, Or.inl h1⟩
    unfold endStream
    rw [if_pos he, endOpenChunk_eq]
    simp [h, hr, h1]

/-- No meaning touches what the environment offers. -/
theorem exec_offers {i : Instr} {s t : State} (h : exec i s = .next t) : t.offers = s.offers := by
  cases i with
  | start => simp only [exec, execStart] at h; split at h <;> cases h <;> simp
  | cancel => simp only [exec, execCancel] at h; split at h <;> cases h <;> simp
  | snapshot ch => cases h; rfl
  | range ch en => cases h; rfl
  | status => cases h; rfl
  | block len p =>
    simp only [exec, execBlock] at h
    split at h
    · cases h; rfl
    split at h
    · cases h
    split at h
    · cases h; rfl
    · cases h; rw [respond_offers, loopTop_offers, processBlock_eq]
  | data l b => obtain ⟨_, e⟩ := execData_next h; rw [e]
  | eos =>
    obtain ⟨_, ⟨_, e⟩ | ⟨_, _, e⟩⟩ := endStream_next (f := fun u => { u with st := .closed }) h <;> rw [e]
  | err c => obtain ⟨_, ⟨_, e⟩ | ⟨_, _, e⟩⟩ := endStream_next h <;> rw [e]; rfl
  | srcRsvd c => obtain ⟨_, ⟨_, e⟩ | ⟨_, _, e⟩⟩ := endStream_next h <;> rw [e]; rfl

/-- A step removes the offer it takes, or leaves every offer standing (a beat that is not accepted, R93). -/
theorem step_offers {s t : State} {o : Offer} {rest : List Offer} (ho : s.nextOffer = some (o, rest))
    (h : step s = .next t) : t.offers = rest ∨ t.offers = s.offers := by
  rw [step_of_nextOffer ho] at h
  cases o with
  | rst => cases h; exact .inl rfl
  | command cmd p =>
    simp only [takeOffer, takeCommand] at h
    split at h
    · exact .inl (exec_offers h)
    · cases h; exact .inl rfl
  | beat b =>
    simp only [takeOffer, takeBeat] at h
    split at h
    · exact .inl (exec_offers h)
    · exact .inr (exec_offers h)
  | chunk bytes =>
    obtain ⟨_, e⟩ := execChunk_next h
    rw [e, feedChunk_offers]
    exact .inl rfl
  | consumer m => cases h; rw [consume_eq]; exact .inl rfl

/-- One step of a run of any machine. -/
theorem core_run_next (M : Host.Core) {k : Nat} {s t : M.State} (h : M.step s = .next t) : M.run (k + 1) s = M.run k t := by
  rw [Host.Core.run, h]

/-- A run of any machine that ends in a state goes through the state after its first step. -/
theorem core_run_succ (M : Host.Core) {k : Nat} {s u : M.State} (h : M.run (k + 1) s = .next u) :
    ∃ t, M.step s = .next t ∧ M.run k t = .next u := by
  rw [Host.Core.run] at h
  cases hs : M.step s with
  | next t => rw [hs] at h; exact ⟨t, rfl, h⟩
  | fault r => rw [hs] at h; cases h
  | refused r => rw [hs] at h; cases h

theorem run_next {k : Nat} {s t : State} (h : step s = .next t) :
    Host.Core.run Sys2Proof.core (k + 1) s = Host.Core.run Sys2Proof.core k t :=
  core_run_next Sys2Proof.core h

theorem run_succ {k : Nat} {s u : State} (h : Host.Core.run Sys2Proof.core (k + 1) s = .next u) :
    ∃ t, step s = .next t ∧ Host.Core.run Sys2Proof.core k t = .next u :=
  core_run_succ Sys2Proof.core h

end Sys2Proof.Machine
end

