-- ==== Sys2Proof/Laws/Window.lean ====
section
/-! SUPPORT. The ring FIFO registers: lengths, slots and stores. -/

namespace Sys2Proof.Machine

@[simp] theorem window_length (r : RingFifo) (c : Channel) : (r.window c).length = r.count.val := by
  simp [RingFifo.window]

/-- A store changes one slot of each channel. -/
theorem store_get (r : RingFifo) (k : Fin Config.windowCapacity) (v : Sample) (c : Channel)
    (j : Fin Config.windowCapacity) :
    ((r.store k v).get c).get j = if j = k then v.ch c else (r.mem.get c).get j := by
  simp only [RingFifo.store, Vector.get_eq_getElem, Vector.getElem_ofFn, Vector.getElem_set]
  by_cases h : j = k
  · simp [h]
  · have : k.val ≠ j.val := fun e => h (Fin.ext e.symm)
    simp [h, this]

/-- The places of a window depend on `head` alone. -/
theorem slot_eq_of_head (r r' : RingFifo) (i : Nat) (h : r.head = r'.head) : r.slot i = r'.slot i := by
  apply Fin.ext; simp [RingFifo.slot, h]

/-- Within one turn of the ring no two places share a slot. -/
theorem slot_injective (r : RingFifo) (i j : Nat) (hi : i < 20) (hj : j < 20) (h : r.slot i = r.slot j) : i = j := by
  have := congrArg Fin.val h
  simp only [RingFifo.slot, Config.windowCapacity] at this
  omega

/-- Push on a window within its capacity keeps the last CAP values (R120). -/
theorem push_eq_lastN (w : List U32) (v : U32) (h : w.length ≤ 20) : push 20 w v = lastN 20 (w ++ [v]) := by
  unfold push lastN
  simp only [List.length_append, List.length_cons, List.length_nil]
  split
  · congr 1; omega
  · rw [show w.length + (0 + 1) - 20 = 0 by omega]; rfl

end Sys2Proof.Machine
end

