-- ==== Sys2Proof/Tests/Slice0.lean ====
section
/-! SUPPORT. Tests. Every expected value is the spec's: the tables of 30_encoding.md, the examples in its rules, and the
vectors of 95_test_vectors.md, named in each comment. -/

namespace Sys2Proof.Tests

open Sys2Proof.Machine

/-! ### Ill-formed terms -/

theorem test_illformed_block_17 : (Instr.block 17 0).wellFormed = false := by decide
theorem test_wellformed_block_16 : (Instr.block 16 0).wellFormed = true := by decide
theorem test_params_ok : Config.params.Ok := by decide

/-! ### Decoding: words written bit by bit from R73, R76, R77 -/

theorem test_decode_start :
    decodeCommand 0b00000000000000000000_00000_0_00_0001#32 9 = .ok .start := by decide
theorem test_decode_cancel :
    decodeCommand 0b00000000000000000000_00000_0_00_0010#32 0 = .ok .cancel := by decide
theorem test_decode_snapshot :
    decodeCommand 0b00000000000000000000_00000_0_10_0011#32 0 = .ok (.snapshot 2) := by decide
theorem test_decode_range :
    decodeCommand 0b00000000000000000000_00000_1_11_0100#32 0 = .ok (.range 3 true) := by decide
theorem test_decode_range_off :
    decodeCommand 0x00000034#32 0 = .ok (.range 3 false) := by decide
theorem test_decode_status :
    decodeCommand 0b00000000000000000000_00000_0_00_0101#32 0 = .ok .status := by decide
theorem test_decode_block :
    decodeCommand 0b00000000000000000000_01010_0_00_0110#32 0x09080706050403020100#128 =
      .ok (.block 10 0x09080706050403020100#128) := by decide
theorem test_decode_data : decodeBeat 0b00_1_11111110#11 = .data true 0xFE := by decide
theorem test_decode_eos : decodeBeat 0x3FF#11 = .eos := by decide
theorem test_decode_err : decodeBeat 0b10_1_10101011#11 = .err 0xAB := by decide
theorem test_decode_srcRsvd : decodeBeat 0b11_0_00000001#11 = .srcRsvd 1 := by decide

/-- T11 to T16, T18, each refused for its own reason (R74). -/
theorem test_decode_illegal :
    (decodeCommand 0x00000000#32 0 = .error .reservedOp ∧ decodeCommand 0x00000007#32 0 = .error .reservedOp) ∧
    (decodeCommand 0x00000011#32 0 = .error .unusedField ∧ decodeCommand 0x00000043#32 0 = .error .unusedField ∧
      decodeCommand 0x00000084#32 0 = .error .unusedField) ∧
    decodeCommand 0x00001005#32 0 = .error .rsvdNonzero ∧ decodeCommand 0x00000886#32 0 = .error .blockTooLong := by
  decide

theorem test_decodeTableWord :
    decodeTableWord 32 0x806 = some (.block 16 0) ∧ decodeTableWord 16 0x1FF = some (.data true 0xFF) ∧
    decodeTableWord 32 0x11 = none ∧ decodeTableWord 16 0x800 = none := by decide

/-! ### The datapath -/

/-- D1, D2. -/
theorem test_decodeFrame :
    decodeFrame [0x01, 0, 0, 0, 0, 0x01, 0, 0, 0, 0, 0x01, 0, 0, 0, 0, 0x01] = .ok ⟨1, 256, 65536, 16777216⟩ ∧
    decodeFrame [0x78, 0x56, 0x34, 0x12, 0xFF, 0xFF, 0xFF, 0xFF, 0, 0, 0, 0, 0xEF, 0xBE, 0xAD, 0xDE] =
      .ok ⟨0x12345678, 0xFFFFFFFF, 0, 0xDEADBEEF⟩ := by decide

/-- D5: `out_data = 0x1E1`. -/
theorem test_decodeFrame_short :
    (processBlock State.reset (List.replicate 15 7)).out.map OutEvent.data = [0x1E1] := by decide

/-- A4 (33 bytes: 2 frames and the byte 32) and A5. -/
theorem test_feed :
    ((feed [] ((List.range 33).map (BitVec.ofNat 8))).1.map List.length = [16, 16] ∧
      (feed [] ((List.range 33).map (BitVec.ofNat 8))).2 = [32]) ∧
    feed (List.replicate 15 1) [2] = ([List.replicate 15 1 ++ [2]], []) := by decide

/-- W7: capacity 1. -/
theorem test_push_capacity_one : push 1 (push 1 [] 3) 4 = [4] := by decide

/-- The ring after 21 commits, with channel 0 going 1 to 21. -/
def ring21 : RingFifo :=
  (List.range 21).foldl (fun r k => r.commit (Sample.mk (BitVec.ofNat 32 (k + 1)) 0 0 0)) RingFifo.reset

/-- W5 and W1: `head = 1`, `count = 20`, `mem[0][0] = 21`, and the window `[2..21]`. -/
theorem test_ring_wraps :
    ring21.head = 1 ∧ ring21.count = 20 ∧ (ring21.mem[0])[0] = 21 ∧
    ring21.window 0 = (List.range 20).map fun k => BitVec.ofNat 32 (k + 2) := by decide

/-- R1, R3, R7, R9, R13, R15 of the autoscale vectors. -/
theorem test_rangeOf :
    rangeOf Config.params [10, 20, 30] true = (180, 620) ∧ rangeOf Config.params [5] true = (80, 120) ∧
    rangeOf Config.params [0] true = (0, 20) ∧
    rangeOf Config.params [4294967295] true = (85899345880, 85899345920) ∧
    rangeOf Config.params [3, 100] true = (0, 2097) ∧
    rangeOf Config.params [4294967000, 4294967295] true = (85899339705, 85899345920) := by decide

/-! ### One step of each instruction -/

/-- READING, between chunks. -/
def idle : State := { State.reset with st := .reading }

/-- READING, in a chunk. -/
def busy : State := { idle with chunkMark := some 0 }

/-- What a step leaves: the state machine, the last response, the events' bits. -/
structure View where
  st  : StreamState
  rsp : Option Response
  out : List (BitVec 128)
  deriving DecidableEq

def view : Host.Outcome State Fault Refusal → Option View
  | .next t    => some ⟨t.st, t.rsp.getLast?, t.out.map OutEvent.data⟩
  | .fault _   => none
  | .refused _ => none

/-- T1 and T2. -/
theorem test_start :
    view (step (State.reset.withFetchWord 32 0x1)) = some ⟨.reading, some ⟨.ok, [0]⟩, []⟩ ∧
    view (step (idle.withFetchWord 32 0x1)) = some ⟨.reading, some ⟨.illegalState, [0]⟩, []⟩ := by decide

/-- T4: START after CANCEL. -/
theorem test_start_cancelled :
    view (exec .start { State.reset with cancelReq := true }) = some ⟨.cancelled, some ⟨.ok, [0]⟩, []⟩ := by decide

/-- T3, T5, and the deferral of P5. -/
theorem test_cancel :
    view (step (State.reset.withFetchWord 32 0x2)) = some ⟨.opened, some ⟨.ok, [0]⟩, []⟩ ∧
    view (step (idle.withFetchWord 32 0x2)) = some ⟨.cancelled, some ⟨.ok, [0]⟩, []⟩ ∧
    view (step (busy.withFetchWord 32 0x2)) = some ⟨.reading, some ⟨.ok, [0]⟩, []⟩ := by decide

/-- The example of R123: `[7, 0, 9]`. -/
theorem test_snapshot :
    view (exec (.snapshot 0)
      { idle with ring := ((RingFifo.reset.commit ⟨7, 1, 1, 1⟩).commit ⟨0, 1, 1, 1⟩).commit ⟨9, 1, 1, 1⟩ }) =
    some ⟨.reading, some ⟨.ok, [0x100000007, 0x100000000, 0x100000009] ++ List.replicate 17 0⟩, []⟩ := by decide

/-- T25. -/
theorem test_snapshot_reset :
    view (step (State.reset.withFetchWord 32 0x33)) = some ⟨.opened, some ⟨.ok, List.replicate 20 0⟩, []⟩ := by decide

/-- T24, and `range c0, on` of P1 on `[1, 5]`. -/
theorem test_range :
    view (step (State.reset.withFetchWord 32 0x64)) = some ⟨.opened, some ⟨.ok, [0, 85899345920]⟩, []⟩ ∧
    view (exec (.range 0 true) { idle with ring := (RingFifo.reset.commit ⟨1, 0, 0, 0⟩).commit ⟨5, 0, 0, 0⟩ }) =
      some ⟨.reading, some ⟨.ok, [16, 104]⟩, []⟩ := by decide

/-- The STATUS word 0x2A4 of P5 and 0x303 of P3. -/
theorem test_status :
    view (exec .status { idle with st := .cancelled, cancelReq := true, carry := [1, 2, 3, 4],
                                   ring := RingFifo.reset.commit ⟨0, 0, 0, 0⟩ }) =
      some ⟨.cancelled, some ⟨.ok, [0x2A4]⟩, []⟩ ∧
    view (exec .status { idle with st := .errored, progErr := true, ring := RingFifo.reset.commit ⟨0, 1, 2, 3⟩ }) =
      some ⟨.errored, some ⟨.ok, [0x303]⟩, []⟩ := by decide

/-- R60: a STATUS three bytes into a chunk that began with an empty carry shows the state before the chunk's first frame; and a
chunk that begins with two bytes carried keeps that length. -/
theorem test_status_in_chunk :
    view (exec .status { busy with carry := [1, 2, 3] }) = some ⟨.reading, some ⟨.ok, [0x1]⟩, []⟩ ∧
    markAfter 9 { idle with carry := [1, 2] } = 2 := by decide

/-- T21 and P3's `block 10`. -/
theorem test_block :
    view (exec (.block 16 0x00000004000000030000000200000001#128) idle) =
      some ⟨.reading, some ⟨.ok, [0]⟩, [0x00000004000000030000000200000001#128]⟩ ∧
    view (exec (.block 10 0x09080706050403020100#128) idle) = some ⟨.reading, some ⟨.ok, [0]⟩, [0x141]⟩ := by decide

/-- T17, T18, and R93. -/
theorem test_block_refused :
    view (step (State.reset.withFetchWord 32 0x806)) = some ⟨.opened, some ⟨.illegalState, [0]⟩, []⟩ ∧
    view (step (State.reset.withFetchWord 32 0x886)) = some ⟨.opened, some ⟨.illegalCmd, [0]⟩, []⟩ ∧
    step { busy with offers := [.command 0x806 0] } = .fault .waiting := by
  refine ⟨by decide, by decide, by rfl⟩

/-- P5: beat 15 completes the frame, and the beat with `last` lets the cancellation through. -/
theorem test_data :
    view (exec (.data false 0x0F) { busy with carry := (List.range 15).map (BitVec.ofNat 8) }) =
      some ⟨.reading, none, [0x0F0E0D0C0B0A09080706050403020100#128]⟩ ∧
    view (exec (.data true 0x13) { busy with cancelReq := true, carry := [0x10, 0x11, 0x12] }) =
      some ⟨.cancelled, none, []⟩ := by decide

/-- T6; EOS inside a chunk (R93), plain and with a cancellation that waits. -/
theorem test_eos :
    view (step (idle.withFetchWord 16 0x200)) = some ⟨.closed, none, []⟩ ∧
    view (exec .eos busy) = some ⟨.closed, none, []⟩ ∧
    view (exec .eos { busy with cancelReq := true }) = some ⟨.cancelled, none, []⟩ := by decide

/-- T7. -/
theorem test_err : view (step (idle.withFetchWord 16 0x42A)) = some ⟨.errored, none, [0x552]⟩ := by decide

/-- T8. -/
theorem test_srcRsvd : view (step (idle.withFetchWord 16 0x601)) = some ⟨.errored, none, [0x032]⟩ := by decide

/-- T23: an EOS beat offered in OPEN has no step and stands in nobody's way: STATUS is taken. -/
theorem test_not_enabled :
    step { State.reset with offers := [.beat 0x200] } = .fault .waiting ∧
    view (step { State.reset with offers := [.beat 0x200, .command 0x5 0] }) = some ⟨.opened, some ⟨.ok, [0]⟩, []⟩ := by
  refine ⟨by rfl, by decide⟩

/-- R230: reset in the middle of a chunk. -/
theorem test_reset :
    step { busy with carry := [1, 2], cancelReq := true, progErr := true, offers := [.rst] } = .next State.reset := by
  rfl

/-! ### The textual syntax (R94, R95; the encodings of P3 and P2) -/

theorem test_listing :
    assemble "block 3 : AA BB CC ; T22\n\nrange c1, on\nsrcerr 0x2A".toList =
      some [.command 0x186 0xCCBBAA, .command 0x54 0, .beat 0x42A] := by decide

theorem test_listing_chunk :
    assemble "chunk 01 00 3f".toList = some [.beat 0x001, .beat 0x000, .beat 0x13F] := by decide

end Sys2Proof.Tests
end

