-- ==== Sys2Proof/Tests/Witnesses.lean ====
section
/-! SUPPORT. Witnesses: for each statement of Certificates/Slice0/Obligations.lean that has hypotheses, concrete states and operands
that meet them all together, one for each clause, at the boundary values. The name after `witness_` is the statement's. -/

namespace Sys2Proof.Tests

open Sys2Proof.Machine

/-! ### Encodings -/

theorem witness_EncodedInstrDecodesToItself : (Instr.block 16 0xFF).WellFormed ∧ (Instr.range 3 true).WellFormed := by decide

theorem witness_LegalCommandWordIsItsEncoding :
    decodeCommand 0x806 7 = .ok (.block 16 7) ∧ decodeCommand 0x6 7 = .ok (.block 0 7) := by decide

/-- The longest legal block and the shortest illegal one, and an `op` on each side of the table. -/
theorem witness_IllegalCommandWords :
    (decodeCommand 0x806 0).isOk = true ∧ (decodeCommand 0x886 0).isOk = false ∧ (decodeCommand 0x1 0).isOk = true ∧
    (decodeCommand 0x0 0).isOk = false ∧ (decodeCommand 0x7 0).isOk = false := by decide

theorem witness_SourceBeatKinds :
    (0x1FF#11).toNat / 512 = 0 ∧ (0x1FF#11).toNat / 256 % 2 = 1 ∧ (0x200#11).toNat / 512 = 1 ∧ (0x5AB#11).toNat / 512 = 2 ∧
    (0x600#11).toNat / 512 = 3 := by decide

theorem witness_ChunkIsDataBeats : ([1, 2] : List Byte)[0]? = some 1 ∧ ([1, 2] : List Byte)[1]? = some 2 := by decide

theorem witness_ListedBlockCarriesItsBytes : (List.replicate 16 (7 : Byte)).length ≤ 16 ∧ ([] : List Byte).length ≤ 16 := by
  decide

theorem witness_ResponseBeats :
    (Response.beats ⟨.ok, [1, 2]⟩)[0]? = some ⟨0, 1, false⟩ ∧ (Response.beats ⟨.ok, [1, 2]⟩)[1]? = some ⟨0, 2, true⟩ := by
  decide

/-! ### Datapath -/

theorem witness_BlockDecodesOrIsReportedShort :
    (List.replicate 16 (1 : Byte)).length = 16 ∧ (List.replicate 15 (1 : Byte)).length < 16 ∧ ([] : List Byte).length < 16 := by
  decide

theorem witness_ChunkBoundariesDoNotMatter :
    (List.replicate 15 (0 : Byte)).length ≤ 15 ∧
    ([[1], [2, 3]] : List (List Byte)).flatten = ([[1, 2], [], [3]] : List (List Byte)).flatten := by decide

theorem witness_FramesAlignedToStreamStart :
    (feedMany [] [List.replicate 10 1, List.replicate 22 2]).1[1]? = some (List.replicate 16 2) := by decide

/-- Not full: empty and one below CAP; full. -/
theorem witness_RingCommitIsPush :
    RingFifo.reset.count.val < 20 ∧ (({ RingFifo.reset with count := 19 } : RingFifo)).count.val < 20 ∧
    ring21.count.val = 20 := by decide

theorem witness_PushesKeepTheLastCap : 1 ≤ 1 ∧ ([] : List U32).length < 1 := by decide

/-- A window of two values held at two places of the storage. -/
theorem witness_RingRegistersUnobservable :
    let r := (RingFifo.reset.commit ⟨1, 2, 3, 4⟩).commit ⟨5, 6, 7, 8⟩
    let r' := (({ RingFifo.reset with head := 19 } : RingFifo).commit ⟨1, 2, 3, 4⟩).commit ⟨5, 6, 7, 8⟩
    r ≠ r' ∧ ({ idle with ring := r } : State).SameView { idle with ring := r' } := by
  refine ⟨by decide, rfl, by decide⟩

/-- One clause each: no autoscale, an empty window, a flat window, a window of two values. -/
theorem witness_RangeReturnsTheBounds :
    State.reset.win 0 = [] ∧
    ({ idle with ring := RingFifo.reset.commit ⟨9, 0, 0, 0⟩ } : State).win 0 = [9] ∧
    ({ idle with ring := (RingFifo.reset.commit ⟨1, 0, 0, 0⟩).commit ⟨5, 0, 0, 0⟩ } : State).win 0 = [1, 5] := by decide

theorem witness_RangeOrderIndependent : ([1, 2] : List U32).Perm [2, 1] := List.Perm.swap 2 1 []

/-! ### Host commands -/

theorem witness_StartOpensOrIsRefused : State.reset.st = .opened ∧ idle.st ≠ .opened := by decide

theorem witness_CancelSetsTheToken :
    (idle.st = .reading ∧ idle.inChunk = false) ∧ State.reset.st ≠ .reading ∧ busy.inChunk = true := by decide

theorem witness_StatusShowsTheState :
    ({ idle with carry := List.replicate 15 0 } : State).inChunk = false ∧
    ({ idle with carry := List.replicate 15 0 } : State).carry.length ≤ 15 := by decide

theorem witness_StatusInsideChunk :
    busy.chunkMark = some 0 ∧ ({ busy with chunkMark := some 15 } : State).chunkMark = some 15 ∧ 15 ≤ 15 := by decide

theorem witness_FullBlockCommitsOneFrame : idle.st = .reading ∧ idle.inChunk = false := by decide

theorem witness_ShortBlockIsReported : (15#5).toNat < 16 ∧ (0#5).toNat < 16 ∧ idle.st = .reading ∧ idle.inChunk = false := by
  decide

theorem witness_BlockRefusedOrHeld :
    16 < (17#5).toNat ∧ (16#5).toNat ≤ 16 ∧ (State.reset.inChunk = false ∧ State.reset.st ≠ .reading) ∧
    busy.inChunk = true := by decide

/-! ### Source events -/

theorem witness_Pulling : idle.Pulling ∧ busy.Pulling ∧ ({ busy with cancelReq := true } : State).Pulling := by
  refine ⟨⟨rfl, .inr rfl⟩, ⟨rfl, .inl rfl⟩, ⟨rfl, .inl rfl⟩⟩

/-- One byte short of the last, and the last byte of a frame. -/
theorem witness_DataBeatFeedsOneByte :
    ({ busy with carry := List.replicate 14 0 } : State).Pulling ∧ (List.replicate 14 (0 : Byte)).length < 15 ∧
    ({ busy with carry := List.replicate 15 0 } : State).Pulling ∧ (List.replicate 15 (0 : Byte)).length = 15 :=
  ⟨⟨rfl, .inl rfl⟩, by decide, ⟨rfl, .inl rfl⟩, by decide⟩

/-- A chunk that begins, and one under way. -/
theorem witness_ChunkMarkIsTheObservationPoint :
    (idle.Pulling ∧ idle.carry.length < 15 ∧ idle.chunkMark = none) ∧
    (busy.Pulling ∧ busy.carry.length < 15 ∧ busy.chunkMark = some 0) :=
  ⟨⟨⟨rfl, .inr rfl⟩, by decide, rfl⟩, ⟨⟨rfl, .inl rfl⟩, by decide, rfl⟩⟩

/-- The hypotheses of EosClosesTheStream and of SourceErrorIsFatal. -/
theorem witness_EosClosesTheStream :
    (idle.st = .reading ∧ idle.cancelReq = false) ∧ (busy.st = .reading ∧ busy.cancelReq = false) ∧
    ({ busy with cancelReq := true } : State).st = .reading ∧ ({ busy with cancelReq := true } : State).inChunk = true := by
  decide

theorem witness_SourceEventsOnlyInReading :
    State.reset.st ≠ .reading ∧
    ({ idle with offers := [.beat 0x200] } : State).nextOffer = some (.beat 0x200, []) := by decide

/-- The hypotheses of ChunkCommitsItsFrames, EmptyChunkChangesNothing and BeatsRefineTheChunk. -/
theorem witness_Idle : idle.Idle ∧ idle.carry.length ≤ 15 ∧ idle.outStall = none := ⟨⟨rfl, rfl, rfl⟩, by decide, rfl⟩

/-! ### Steps -/

/-- A command; a beat that is accepted; a beat that a waiting cancellation turns away. -/
theorem witness_StepRunsTheDecodedInstr :
    ({ idle with offers := [.command 0x5 0] } : State).nextOffer = some (.command 0x5 0, []) ∧
    ({ busy with cancelReq := true, offers := [.beat 0x100] } : State).nextOffer = some (.beat 0x100, []) ∧
    ({ busy with cancelReq := true, offers := [.beat 0x200] } : State).nextOffer = some (.beat 0x200, []) ∧
    (0x100#11).toNat / 512 = 0 ∧ (0x200#11).toNat / 512 ≠ 0 ∧ decodeTableWord 16 0x200 = some .eos ∧
    decodeTableWord 32 0x806 = some (.block 16 0) := by decide

theorem witness_IllegalCommandIsRefused :
    ({ busy with offers := [.command 0 0] } : State).nextOffer = some (.command 0 0, []) ∧
    decodeCommand 0 0 = .error .reservedOp := by decide

theorem witness_ResetFromAnyState :
    ({ busy with offers := [.rst, .beat 0] } : State).nextOffer = some (.rst, [.beat 0]) := by decide

theorem reset_inv : State.reset.Inv :=
  ⟨by decide, fun h => absurd h (by decide), fun _ h => absurd h (by simp [State.reset]), fun h => absurd h (by decide),
    fun h => absurd h (by decide), fun _ => ⟨rfl, rfl, rfl⟩⟩

theorem idle_inv : idle.Inv :=
  ⟨by decide, fun h => absurd h (by decide), fun _ h => absurd h (by simp [idle, State.reset]),
    fun _ h => absurd h (by decide), fun h => absurd h (by decide), fun h => absurd h (by decide)⟩

/-- A cancellation that waits for a chunk. -/
theorem busy_inv : ({ busy with cancelReq := true } : State).Inv :=
  ⟨by decide, fun _ => rfl, fun n h => by cases h; decide, fun _ _ => rfl, fun _ => rfl, fun h => absurd h (by decide)⟩

/-- Each edge of the state machine is taken: START twice, EOS, ERR, CANCEL, and the end of a chunk. -/
theorem witness_StateMachineEdges :
    (∃ t, StepOf { State.reset with offers := [.command 1 0] } (.command 1 0) t ∧ t.st = .reading) ∧
    (∃ t, StepOf { State.reset with cancelReq := true, offers := [.command 1 0] } (.command 1 0) t ∧ t.st = .cancelled) ∧
    (∃ t, StepOf { idle with offers := [.beat 0x200] } (.beat 0x200) t ∧ t.st = .closed) ∧
    (∃ t, StepOf { idle with offers := [.beat 0x42A] } (.beat 0x42A) t ∧ t.st = .errored) ∧
    (∃ t, StepOf { idle with offers := [.command 2 0] } (.command 2 0) t ∧ t.st = .cancelled) ∧
    ∃ t, StepOf { busy with cancelReq := true, offers := [.beat 0x113] } (.beat 0x113) t ∧ t.st = .cancelled := by
  refine ⟨⟨_, ⟨_, rfl, by decide, rfl⟩, rfl⟩, ⟨_, ⟨_, rfl, by decide, rfl⟩, rfl⟩, ⟨_, ⟨_, rfl, by decide, rfl⟩, rfl⟩,
    ⟨_, ⟨_, rfl, by decide, rfl⟩, rfl⟩, ⟨_, ⟨_, rfl, by decide, rfl⟩, rfl⟩, ⟨_, ⟨_, rfl, by decide, rfl⟩, rfl⟩⟩

/-- A token and a fault bit that are set, in a terminal state; and a token not set that a CANCEL sets. -/
theorem witness_OnlyResetClears :
    (∃ t, StepOf { State.reset with st := .cancelled, cancelReq := true, progErr := true, offers := [.command 5 0] }
      (.command 5 0) t) ∧
    ∃ t, StepOf { State.reset with offers := [.command 2 0] } (.command 2 0) t ∧ t.cancelReq = true := by
  refine ⟨⟨_, _, rfl, by decide, rfl⟩, ⟨_, ⟨_, rfl, by decide, rfl⟩, rfl⟩⟩

/-- The hypotheses of ProgErrRecordsRefusals, OneResponsePerCommand and IllegalStateRefusals: a refused command and an answered
one. -/
theorem witness_IllegalStateRefusals :
    (∃ t, StepOf { State.reset with offers := [.command 0x806 0] } (.command 0x806 0) t ∧ t.progErr = true) ∧
    ∃ t, StepOf { State.reset with offers := [.command 0x33 0] } (.command 0x33 0) t ∧ t.progErr = false := by
  refine ⟨⟨_, ⟨_, rfl, by decide, rfl⟩, rfl⟩, ⟨_, ⟨_, rfl, by decide, rfl⟩, rfl⟩⟩

/-- The hypotheses of OutputStreamOnlyGrows and OnlyIngestionWritesData: a step that sends a SAMPLE. -/
theorem witness_OutputStreamOnlyGrows :
    ∃ t, StepOf { busy with carry := List.replicate 15 0, offers := [.beat 0x101] } (.beat 0x101) t ∧ t.out.length = 1 := by
  exact ⟨_, ⟨_, rfl, by decide, rfl⟩, rfl⟩

/-- In CLOSED: START, CANCEL and STATUS are taken. -/
theorem witness_TerminalStatesKeepTheirData :
    (∃ t, StepOf { State.reset with st := .closed, offers := [.command 1 0] } (.command 1 0) t) ∧
    (∃ t, StepOf { State.reset with st := .closed, offers := [.command 2 0] } (.command 2 0) t) ∧
    ∃ t, StepOf { State.reset with st := .closed, offers := [.command 5 0] } (.command 5 0) t := by
  refine ⟨⟨_, _, rfl, by decide, rfl⟩, ⟨_, _, rfl, by decide, rfl⟩, ⟨_, _, rfl, by decide, rfl⟩⟩

theorem witness_ControlGoesFirstInACycle :
    ({ idle with offers := sameCycle 5 0 0x100 } : State).ctlReady 5 = true ∧ idle.st = .reading ∧ idle.inChunk = false := by
  decide

/-- Inside a chunk with a cancellation that waits: a beat that goes on with the chunk, and a STATUS. -/
theorem witness_ChunkInProgressHoldsBlockAndCancel :
    (∃ t, StepOf { busy with cancelReq := true, offers := [.beat 0x0FF] } (.beat 0x0FF) t ∧ t.st = .reading) ∧
    ∃ t, StepOf { busy with cancelReq := true, offers := [.beat 0x1FF] } (.beat 0x1FF) t ∧ t.st = .cancelled := by
  refine ⟨⟨_, ⟨_, rfl, by decide, rfl⟩, rfl⟩, ⟨_, ⟨_, rfl, by decide, rfl⟩, rfl⟩⟩

/-- OUT_DEPTH events held, whatever OUT_DEPTH is, with a source beat that waits and a STATUS that is taken. -/
theorem witness_FullOutputStopsIntake :
    let s : State := { idle with out := List.replicate (Config.outSpare + 1) (.sample ⟨0, 0, 0, 0⟩), outStall := some 0,
                                 offers := [.beat 0x100, .command 5 0] }
    Config.outSpare + 1 ≤ s.out.length - 0 ∧ s.nextOffer = some (.command 5 0, [.beat 0x100]) := by
  refine ⟨by simp, ?_⟩
  have h5 : decodeCommand 5#32 0#128 = .ok .status := by decide
  simp [State.nextOffer, State.select, State.canTake, State.srcReady, State.outFull, State.outHeld, State.ctlReady,
    Offer.onControl]
  rw [h5]
  rfl

/-- The hypotheses of the four statements on invariants: reset meets them, and a step from READING. -/
theorem witness_invariants :
    State.reset.Inv ∧ State.reset.FatalIsLast ∧ State.reset.WindowsFollowStream ∧
    ∃ t, step { State.reset with offers := [.command 1 0] } = .next t :=
  ⟨reset_inv, ⟨by simp [State.reset], by simp [State.reset]⟩, fun c => by revert c; decide, _, rfl⟩

theorem witness_NothingFollowsACancellation :
    idle.st = .reading ∧ idle.inChunk = false ∧
    ∃ t u, exec .cancel { idle with offers := [.beat 0x100, .command 5 0] } = .next t ∧
      Host.Core.run Sys2Proof.core 1 t = .next u := by
  exact ⟨rfl, rfl, _, _, rfl, rfl⟩

end Sys2Proof.Tests
end

section
/-! PROOFS. Bytes fed in two parts, and what a frame commit neither reads nor writes. -/

namespace Sys2Proof.Machine

/-- Feed of a chunk in two parts: the frames of the first, then those of the second after the carry of the first (R113). -/
theorem feed_append (carry xs ys : List Byte) :
    feed carry (xs ++ ys) =
      ((feed carry xs).1 ++ (feed (feed carry xs).2 ys).1, (feed (feed carry xs).2 ys).2) := by
  suffices joined : ∀ (n : Nat) (buf : List Byte), buf.length ≤ n →
      feed [] (buf ++ ys) = ((feed [] buf).1 ++ (feed (feed [] buf).2 ys).1, (feed (feed [] buf).2 ys).2) by
    rw [feed_nil_append carry (xs ++ ys), feed_nil_append carry xs, ← List.append_assoc]
    exact joined _ _ (Nat.le_refl _)
  intro n
  induction n with
  | zero =>
    intro buf h
    obtain rfl : buf = [] := List.eq_nil_of_length_eq_zero (Nat.le_zero.1 h)
    rfl
  | succ n ih =>
    intro buf h
    rcases Nat.lt_or_ge buf.length Config.frameSize with hlt | hge
    · rw [feed_of_lt [] buf hlt, ← feed_nil_append buf ys, List.nil_append, List.nil_append]
    · have hrest : (buf.drop Config.frameSize).length ≤ n := by
        rw [List.length_drop]; simp only [Config.frameSize] at hge ⊢; omega
      have hle : Config.frameSize ≤ (buf ++ ys).length := by rw [List.length_append]; omega
      rw [feed_of_le [] (buf ++ ys) hle, feed_of_le [] buf hge]
      simp only [List.nil_append, List.take_append_of_le_length hge, List.drop_append_of_le_length hge, ih _ hrest,
        List.cons_append]

/-- A frame commit neither reads nor writes the carry, the chunk's mark and the offers. -/
theorem processBlock_frame (s : State) (blk c : List Byte) (m : Option Nat) (os : List Offer) :
    processBlock { s with carry := c, chunkMark := m, offers := os } blk =
      { processBlock s blk with carry := c, chunkMark := m, offers := os } := by
  unfold processBlock; split <;> rfl

/-- The same of several frame commits. -/
theorem foldl_processBlock_frame (c : List Byte) (m : Option Nat) (os : List Offer) (bs : List (List Byte)) :
    ∀ s : State, bs.foldl processBlock { s with carry := c, chunkMark := m, offers := os } =
      { bs.foldl processBlock s with carry := c, chunkMark := m, offers := os } := by
  induction bs with
  | nil => intro s; rfl
  | cons b bs ih => intro s; rw [List.foldl_cons, processBlock_frame, ih, List.foldl_cons]

/-- Several frame commits with another carry. -/
theorem foldl_processBlock_carry (c : List Byte) (bs : List (List Byte)) (s : State) :
    bs.foldl processBlock { s with carry := c } = { bs.foldl processBlock s with carry := c } :=
  calc bs.foldl processBlock { s with carry := c }
      = { bs.foldl processBlock s with carry := c, chunkMark := s.chunkMark, offers := s.offers } :=
        foldl_processBlock_frame c s.chunkMark s.offers bs s
    _ = { bs.foldl processBlock s with carry := c } := by rw [foldl_processBlock_eq bs s]

/-- Fed bytes neither read nor write the chunk's mark and the offers. -/
theorem feedChunk_frame (chunk : List Byte) (s : State) (m : Option Nat) (os : List Offer) :
    feedChunk chunk { s with chunkMark := m, offers := os } = { feedChunk chunk s with chunkMark := m, offers := os } := by
  have commits := fun t => foldl_processBlock_frame (feed s.carry chunk).2 m os (feed s.carry chunk).1 t
  have hc : (feed s.carry chunk).2 = (feedChunk chunk s).carry := (feedChunk_carry s chunk).symm
  calc feedChunk chunk { s with chunkMark := m, offers := os }
      = { feedChunk chunk s with carry := (feed s.carry chunk).2, chunkMark := m, offers := os } :=
        commits { s with carry := (feed s.carry chunk).2 }
    _ = { feedChunk chunk s with chunkMark := m, offers := os } := by rw [hc]

/-- Bytes fed in two parts end in the state that feeding them at once ends in (R113, R167). -/
theorem feedChunk_append (xs ys : List Byte) (s : State) :
    feedChunk (xs ++ ys) s = feedChunk ys (feedChunk xs s) := by
  have commits : ∀ c, (feed s.carry xs).1.foldl processBlock { s with carry := c } = { feedChunk xs s with carry := c } :=
    fun c => foldl_processBlock_carry c (feed s.carry xs).1 { s with carry := (feed s.carry xs).2 }
  have hsecond : feedChunk ys (feedChunk xs s) = (feed (feed s.carry xs).2 ys).1.foldl processBlock
      { feedChunk xs s with carry := (feed (feed s.carry xs).2 ys).2 } := by
    rw [← feedChunk_carry s xs]; rfl
  rw [hsecond, ← commits, ← List.foldl_append, feedChunk, feed_append]

end Sys2Proof.Machine
end

section
/-! PROOFS. The ports: source beats as numbers, the beats that are accepted, and the offers a ready port takes. -/

namespace Sys2Proof.Machine

/-- A source beat as a number (R76). -/
theorem srcBeat_toNat (kind : BitVec 2) (last : BitVec 1) (data : Byte) :
    (srcBeat kind last data).toNat = data.toNat + 256 * last.toNat + 512 * kind.toNat := by
  have := kind.isLt
  have := last.isLt
  have := data.isLt
  simp only [srcBeat, BitVec.toNat_ofNat]
  omega

/-- The kind of a beat is its two highest bits (R76). -/
theorem beatKind_toNat (b : BitVec 11) : (b.extractLsb' 9 2).toNat = b.toNat / 512 := by
  have := b.isLt
  simp only [BitVec.extractLsb'_toNat, Nat.shiftRight_eq_div_pow]
  omega

/-- A beat of kind 0 is DATA (R77). -/
theorem decodeBeat_of_kind_zero {b : BitVec 11} (h : b.toNat / 512 = 0) :
    decodeBeat b = .data (b.extractLsb' 8 1 == 1) (b.extractLsb' 0 8) := by
  unfold decodeBeat; rw [beatKind_toNat, h]; rfl

/-- A beat of another kind is not DATA (R77). -/
theorem decodeBeat_ne_data {b : BitVec 11} (h : b.toNat / 512 ≠ 0) (l : Bool) (d : Byte) :
    decodeBeat b ≠ .data l d := by
  unfold decodeBeat
  rw [beatKind_toNat]
  split
  · contradiction
  all_goals exact Instr.noConfusion

/-- A beat built of kind 0 with a `last` bit and a byte decodes to them (R76, R77). -/
theorem decodeBeat_srcBeat_data (last : BitVec 1) (b : Byte) :
    decodeBeat (srcBeat 0 last b) = .data (last == 1) b := by
  have hn : (srcBeat 0 last b).toNat = b.toNat + 256 * last.toNat := by rw [srcBeat_toNat]; rfl
  have hb := b.isLt
  have hl := last.isLt
  have hbyte : (srcBeat 0 last b).extractLsb' 0 8 = b := by
    apply BitVec.eq_of_toNat_eq
    simp only [BitVec.extractLsb'_toNat, hn, Nat.shiftRight_zero]
    omega
  have hlast : (srcBeat 0 last b).extractLsb' 8 1 = last := by
    apply BitVec.eq_of_toNat_eq
    simp only [BitVec.extractLsb'_toNat, hn, Nat.shiftRight_eq_div_pow]
    omega
  rw [decodeBeat_of_kind_zero (by rw [hn]; omega), hbyte, hlast]

/-! ### Which beats are accepted (R93) -/

/-- A DATA beat is accepted. -/
theorem acceptsBeat_of_kind_zero (s : State) {b : BitVec 11} (h : b.toNat / 512 = 0) :
    s.acceptsBeat (decodeBeat b) = true := by
  rw [decodeBeat_of_kind_zero h]; rfl

/-- Another beat is accepted if the block is READING once the chunk in progress has ended. -/
theorem acceptsBeat_of_kind_ne_zero (s : State) {b : BitVec 11} (h : b.toNat / 512 ≠ 0) :
    s.acceptsBeat (decodeBeat b) = ((endOpenChunk s).st == .reading) := by
  unfold State.acceptsBeat
  split
  next l d hd => exact absurd hd (decodeBeat_ne_data h l d)
  next => rfl

/-- In READING a beat is turned away exactly when it is no DATA beat and ends a chunk that a cancellation waits for. -/
theorem acceptsBeat_eq_false_iff {s : State} (hr : s.st = .reading) (b : BitVec 11) :
    s.acceptsBeat (decodeBeat b) = false ↔ s.inChunk = true ∧ s.cancelReq = true ∧ b.toNat / 512 ≠ 0 := by
  by_cases h : b.toNat / 512 = 0
  · simp [acceptsBeat_of_kind_zero s h, h]
  · rw [acceptsBeat_of_kind_ne_zero s h, endOpenChunk_eq]
    cases hi : s.inChunk <;> cases hc : s.cancelReq <;> simp [hr, h]

/-- A beat is the next offer only in READING (R163). -/
theorem reading_of_nextOffer_beat {s : State} {b : BitVec 11} {rest : List Offer}
    (h : s.nextOffer = some (.beat b, rest)) : s.st = .reading := by
  obtain ⟨⟨cw, sw, hc⟩, -⟩ := nextOffer_some h
  have hready : s.srcReady = true := by
    simp only [State.canTake, Bool.and_eq_true] at hc; exact hc.2
  exact ((srcEnabled_iff s).1 ((srcReady_iff s).1 hready).1).1

/-- The step that takes a beat runs what it decodes to, with the offer removed if it is accepted (R93). -/
theorem step_of_nextOffer_beat {s : State} {b : BitVec 11} {rest : List Offer}
    (h : s.nextOffer = some (.beat b, rest)) :
    step s = if s.acceptsBeat (decodeBeat b) = true then exec (decodeBeat b) { s with offers := rest }
      else exec (decodeBeat b) s :=
  step_of_nextOffer h

/-! ### Offers that a ready port takes -/

/-- A source event has a step in READING when no cancellation waits. -/
theorem srcEnabled_of_clear {s : State} (hr : s.st = .reading) (hc : s.cancelReq = false) : s.srcEnabled = true :=
  (srcEnabled_iff s).2 ⟨hr, .inr hc⟩

/-- The source port is ready in READING when no cancellation waits and the consumer takes events as they come. -/
theorem srcReady_of_clear {s : State} (hr : s.st = .reading) (hc : s.cancelReq = false) (ho : s.outStall = none) :
    s.srcReady = true :=
  (srcReady_iff s).2 ⟨srcEnabled_of_clear hr hc, outFull_of_none s ho⟩

/-- `src_ready` does not depend on the offers. -/
@[simp] theorem srcReady_offers (s : State) (os : List Offer) : { s with offers := os }.srcReady = s.srcReady := rfl

/-- `ctl_ready` does not depend on the offers. -/
@[simp] theorem ctlReady_offers (s : State) (os : List Offer) (cmd : BitVec 32) :
    { s with offers := os }.ctlReady cmd = s.ctlReady cmd := rfl

/-- A beat offered first on a ready source port is the next offer. -/
theorem nextOffer_beat {s : State} (h : s.srcReady = true) (b : BitVec 11) (os : List Offer) :
    { s with offers := .beat b :: os }.nextOffer = some (.beat b, os) :=
  nextOffer_head rfl (by simp [State.canTake, h])

/-- A command word offered first on a control port that is ready for it is the next offer. -/
theorem nextOffer_command {s : State} {cmd : BitVec 32} (h : s.ctlReady cmd = true) (p : BitVec 128)
    (os : List Offer) : { s with offers := .command cmd p :: os }.nextOffer = some (.command cmd p, os) :=
  nextOffer_head rfl (by simp [State.canTake, h])

end Sys2Proof.Machine
end

section
/-! PROOFS. A chunk sent beat by beat, against the transaction-level CHUNK event (O38). -/

namespace Sys2Proof.Machine

/-- A DATA beat offered first on a ready source port is run with its offer removed (R91). -/
theorem step_dataBeat {s : State} (h : s.srcReady = true) (last : BitVec 1) (b : Byte) (os : List Offer) :
    step { s with offers := .beat (srcBeat 0 last b) :: os } = execData (last == 1) b { s with offers := os } := by
  rw [step_of_nextOffer (nextOffer_beat h _ _), takeOffer, takeBeat, decodeBeat_srcBeat_data]
  rfl

/-- The step of a beat within a chunk: its byte is fed and the mark set (R91, R60). -/
theorem step_dataBeat_more {s : State} (hr : s.st = .reading) (hc : s.cancelReq = false) (ho : s.outStall = none)
    (b : Byte) (os : List Offer) :
    step { s with offers := .beat (srcBeat 0 0 b) :: os } =
      .next { feedChunk [b] s with chunkMark := some (markAfter b s), offers := os } := by
  rw [step_dataBeat (srcReady_of_clear hr hc ho)]
  have he : { s with offers := os }.srcEnabled = true := srcEnabled_of_clear hr hc
  unfold execData
  rw [if_pos he, if_neg (by decide), feedChunk_frame [b] s s.chunkMark os]
  rfl

/-- The step of a chunk's last beat: its byte is fed and the chunk ends (R91). -/
theorem step_dataBeat_last {s : State} (hr : s.st = .reading) (hc : s.cancelReq = false) (ho : s.outStall = none)
    (b : Byte) (os : List Offer) :
    step { s with offers := .beat (srcBeat 0 1 b) :: os } =
      .next { feedChunk [b] s with chunkMark := none, offers := os } := by
  rw [step_dataBeat (srcReady_of_clear hr hc ho)]
  have he : { s with offers := os }.srcEnabled = true := srcEnabled_of_clear hr hc
  unfold execData
  rw [if_pos he, if_pos (by decide), feedChunk_frame [b] s s.chunkMark os, endChunk, loopTop_of_clear _ (by simp [hc])]

/-- The beats of a chunk, from any READING state with no cancellation and a consumer that keeps up, feed the chunk's bytes
and leave no chunk in progress. -/
theorem run_chunkOffers (rest : List Offer) (bytes : List Byte) : ∀ (b : Byte) (s : State),
    s.st = .reading → s.cancelReq = false → s.outStall = none →
    Host.Core.run Sys2Proof.core (bytes.length + 1) { s with offers := chunkOffers (b :: bytes) ++ rest } =
      .next { feedChunk (b :: bytes) s with chunkMark := none, offers := rest } := by
  induction bytes with
  | nil =>
    intro b s hr hc ho
    exact run_next (step_dataBeat_last hr hc ho b rest)
  | cons b' bytes ih =>
    intro b s hr hc ho
    have hfirst := step_dataBeat_more hr hc ho b (chunkOffers (b' :: bytes) ++ rest)
    have hmore := ih b' { feedChunk [b] s with chunkMark := some (markAfter b s) } (by simp [hr]) (by simp [hc])
      (by simp [ho])
    have hfeed : feedChunk (b :: b' :: bytes) s = feedChunk (b' :: bytes) (feedChunk [b] s) :=
      feedChunk_append [b] (b' :: bytes) s
    refine (run_next hfirst).trans (hmore.trans ?_)
    rw [hfeed]
    exact congrArg (fun t : State => Host.Outcome.next { t with chunkMark := none, offers := rest })
      (feedChunk_frame (b' :: bytes) (feedChunk [b] s) _ _)

/-- A transaction-level chunk in an idle state feeds its bytes (R167). -/
theorem execChunk_of_idle {s : State} (h : s.Idle) (bytes : List Byte) :
    execChunk bytes s = .next (feedChunk bytes s) := by
  obtain ⟨hr, hi, hc⟩ := h
  have he : s.srcEnabled = true := srcEnabled_of_clear hr hc
  unfold execChunk
  rw [if_pos (by simp [he, hi]), loopTop_of_clear _ (by simp [hc])]

/-- Settles O38: each beat but the last feeds its byte, the last one also ends the chunk, and Feed does not see where the
bytes were cut. -/
theorem beatsRefineTheChunk : Obligations.BeatsRefineTheChunk := by
  intro b bytes rest s hidle ho
  have hidle' : { s with offers := rest }.Idle := hidle
  obtain ⟨hr, hi, hc⟩ := hidle
  have hm : s.chunkMark = none := chunkMark_of_inChunk_false hi
  have hrun := run_chunkOffers rest bytes b s hr hc ho
  rw [← feedChunk_frame, ← hm] at hrun
  exact hrun.trans (execChunk_of_idle hidle' (b :: bytes)).symm

end Sys2Proof.Machine
end

section
/-! PROOFS. What a step runs: the instruction that the taken offer decodes to, and words placed by `withFetchWord` (O39). -/

namespace Sys2Proof.Machine

/-- `withSourceReady` makes the source port ready. -/
theorem withSourceReady_srcReady (s : State) : s.withSourceReady.srcReady = true := by
  unfold State.withSourceReady
  split
  next h => exact h
  next =>
    refine (srcReady_iff _).2 ⟨(srcEnabled_iff _).2 ⟨rfl, ?_⟩, outFull_of_none _ rfl⟩
    cases hi : s.inChunk
    · exact .inr rfl
    · exact .inl hi

/-- `withControlReady` makes the control port ready for the word. -/
theorem withControlReady_ctlReady (s : State) (cmd : BitVec 32) : (s.withControlReady cmd).ctlReady cmd = true := by
  unfold State.withControlReady
  split
  next h => exact h
  next =>
    unfold State.ctlReady
    split
    · simp [outFull_of_none]
    · rfl

/-- What a table word is: a beat in at most 16 bits, a command word with no payload above them. -/
theorem decodeTableWord_some {nbits w : Nat} {i : Instr} (h : decodeTableWord nbits w = some i) :
    (nbits ≤ 16 ∧ decodeBeat (BitVec.ofNat 11 w) = i) ∨
    (¬ nbits ≤ 16 ∧ decodeCommand (BitVec.ofNat 32 w) 0 = .ok i) := by
  unfold decodeTableWord at h
  by_cases hn : nbits ≤ 16
  · rw [if_pos hn] at h
    split at h
    · exact .inl ⟨hn, Option.some.inj h⟩
    · cases h
  · rw [if_neg hn] at h
    split at h
    · split at h
      next j hj => exact .inr ⟨hn, hj.trans (congrArg Except.ok (Option.some.inj h))⟩
      next => cases h
    · cases h

/-- A table word of at most 16 bits is placed as the beat that the next step takes. -/
theorem withFetchWord_beat (s : State) {nbits : Nat} (w : Nat) (h : nbits ≤ 16) :
    (s.withFetchWord nbits w).nextOffer = some (.beat (BitVec.ofNat 11 w), s.offers) := by
  unfold State.withFetchWord placeWord
  rw [if_pos h]
  exact nextOffer_beat (withSourceReady_srcReady s) _ _

/-- A longer table word is placed as the command word that the next step takes. -/
theorem withFetchWord_command (s : State) {nbits : Nat} (w : Nat) (h : ¬ nbits ≤ 16) :
    (s.withFetchWord nbits w).nextOffer = some (.command (BitVec.ofNat 32 w) 0, s.offers) := by
  unfold State.withFetchWord placeWord
  rw [if_neg h]
  exact nextOffer_command (withControlReady_ctlReady s _) _ _

/-- Settles O39: a taken command is decoded and run, a beat by whether it is accepted (R93), and a table word stands where
the next step takes it. -/
theorem stepRunsTheDecodedInstr : Obligations.StepRunsTheDecodedInstr := by
  refine ⟨?_, ?_, ?_⟩
  · intro s cmd p rest i ho hi
    rw [step_of_nextOffer ho, takeOffer, takeCommand, hi]
  · intro s b rest ho
    have hturned := acceptsBeat_eq_false_iff (reading_of_nextOffer_beat ho) b
    rw [step_of_nextOffer_beat ho]
    constructor
    · intro h
      have haccepted : s.acceptsBeat (decodeBeat b) = true := by
        rw [← Bool.not_eq_false, hturned]
        rintro ⟨hi, hc, hk⟩
        simp [hi, hc, hk] at h
      rw [if_pos haccepted]
    · intro hi hc hk
      rw [if_neg (by simp [hturned.2 ⟨hi, hc, hk⟩])]
  · intro s nbits w i h
    rcases decodeTableWord_some h with ⟨hn, hb⟩ | ⟨hn, hcmd⟩
    · exact ⟨_, withFetchWord_beat s w hn, .inr ⟨_, rfl, hb⟩⟩
    · exact ⟨_, withFetchWord_command s w hn, .inl ⟨_, rfl, hcmd⟩⟩

end Sys2Proof.Machine
end

section
/-! PROOFS. A frame commit on the ring registers is Push on every window, so that it sees nothing outside the windows. -/

namespace Sys2Proof.Machine

/-- In a full ring the place after the newest value is that of the oldest, `head`. -/
theorem slot_count_of_full {r : RingFifo} (h : r.count.val = 20) : r.slot r.count.val = r.head := by
  have := r.head.isLt
  apply Fin.ext
  simp only [RingFifo.slot, Config.windowCapacity, h] at this ⊢
  omega

/-- A commit stores its value in the place after the newest, full or not, and leaves every other register as it is. -/
theorem commit_get (r : RingFifo) (v : Sample) (c : Channel) (j : Fin Config.windowCapacity) :
    ((r.commit v).mem.get c).get j = if j = r.slot r.count.val then v.ch c else (r.mem.get c).get j := by
  by_cases h : r.count.val < Config.windowCapacity
  · simp only [RingFifo.commit, h, dite_true, store_get]
  · have hfull : r.count.val = 20 := Nat.le_antisymm (Nat.le_of_lt_succ r.count.isLt) (Nat.not_lt.1 h)
    rw [slot_count_of_full hfull]
    simp only [RingFifo.commit, h, dite_false, store_get]

/-- A commit into a ring that is not full appends to every window. -/
theorem window_commit_of_lt {r : RingFifo} (h : r.count.val < 20) (v : Sample) (c : Channel) :
    (r.commit v).window c = r.window c ++ [v.ch c] := by
  have hcount : (r.commit v).count.val = r.count.val + 1 := by simp [RingFifo.commit, h]
  have hslot : ∀ i, (r.commit v).slot i = r.slot i := fun i => slot_eq_of_head _ _ i (by simp [RingFifo.commit, h])
  have hold : ∀ i ∈ List.range r.count.val, r.slot i ≠ r.slot r.count.val := by
    intro i hi e
    have hi := List.mem_range.1 hi
    have := slot_injective r i r.count.val (by omega) h e
    omega
  simp only [RingFifo.window, hcount, commit_get, hslot, List.range_succ, List.map_append, List.map_cons, List.map_nil,
    if_true]
  rw [List.map_congr_left fun i hi => if_neg (hold i hi)]

/-- A commit into a full ring drops the oldest value of every window and appends. -/
theorem window_commit_of_full {r : RingFifo} (h : r.count.val = 20) (v : Sample) (c : Channel) :
    (r.commit v).window c = (r.window c).drop 1 ++ [v.ch c] := by
  have hcount : (r.commit v).count.val = 19 + 1 := by simp [RingFifo.commit, h]
  have hslot : ∀ i, (r.commit v).slot i = r.slot (i + 1) := by
    intro i
    apply Fin.ext
    simp only [RingFifo.commit, RingFifo.slot, h, Config.windowCapacity, Nat.lt_irrefl, dite_false]
    omega
  have hold : ∀ i ∈ List.range 19, r.slot (i + 1) ≠ r.slot (19 + 1) := by
    intro i hi e
    have hi := List.mem_range.1 hi
    have := congrArg Fin.val e
    simp only [RingFifo.slot, Config.windowCapacity] at this
    omega
  have hdrop : (r.window c).drop 1 = (List.range 19).map fun i => (r.mem.get c).get (r.slot (i + 1)) := by
    have h' : r.count.val = 19 + 1 := h
    simp only [RingFifo.window, h', List.range_succ_eq_map, List.map_cons, List.map_map, List.drop_one, List.tail_cons]
    rfl
  rw [hdrop]
  simp only [RingFifo.window, hcount, commit_get, hslot, h, List.range_succ (n := 19), List.map_append, List.map_cons,
    List.map_nil, if_true]
  rw [List.map_congr_left fun i hi => if_neg (hold i hi)]

/-- A frame commit is Push on every window (R122). -/
theorem window_commit (r : RingFifo) (v : Sample) (c : Channel) :
    (r.commit v).window c = push Config.windowCapacity (r.window c) (v.ch c) := by
  have hle : r.count.val ≤ 20 := Nat.le_of_lt_succ r.count.isLt
  unfold push
  rcases Nat.lt_or_eq_of_le hle with h | h
  · rw [window_commit_of_lt h, if_neg (by simp; omega)]
  · rw [window_commit_of_full h, if_pos (by simp [h]), List.drop_append_of_le_length (by simp [h])]

end Sys2Proof.Machine
end

section
/-! PROOFS. States with the same windows cannot be told apart: every operation, every meaning and the choice of an
offer carry `SameView` along (O18). -/

namespace Sys2Proof.Machine

/-- Two states have the same view when one is the other with a ring that has the same windows. -/
theorem sameView_iff {s t : State} :
    s.SameView t ↔ ∃ r : RingFifo, t = { s with ring := r } ∧ ∀ c, r.window c = s.ring.window c := by
  constructor
  · rintro ⟨hrest, hwin⟩
    exact ⟨t.ring, hrest, hwin⟩
  · rintro ⟨r, rfl, hwin⟩
    exact ⟨rfl, hwin⟩

theorem State.SameView.refl (s : State) : s.SameView s := ⟨rfl, fun _ => rfl⟩

/-! ### The operations -/

section Operations
variable {s t : State}

/-- STATUS shows a window's length and no other part of the ring. -/
theorem State.SameView.statusWord_eq (h : s.SameView t) : t.statusWord = s.statusWord := by
  have hlen : t.wlen = s.wlen := congrArg List.length (h.2 0)
  obtain ⟨r, rfl, -⟩ := sameView_iff.1 h
  unfold State.statusWord
  rw [hlen]
  rfl

/-- An operation that neither reads nor writes the ring carries the view along. -/
theorem State.SameView.congr_of_frame {f : State → State} (h : s.SameView t)
    (hread : ∀ r, f { s with ring := r } = { f s with ring := r }) (hwrite : (f s).ring = s.ring) :
    (f s).SameView (f t) := by
  obtain ⟨r, rfl, hwin⟩ := sameView_iff.1 h
  exact sameView_iff.2 ⟨r, hread r, by rwa [hwrite]⟩

theorem State.SameView.respond_congr (h : s.SameView t) (st : RspStatus) (ds : List (BitVec 40)) :
    (respond st ds s).SameView (respond st ds t) :=
  h.congr_of_frame (fun _ => rfl) rfl

theorem State.SameView.refuse_congr (h : s.SameView t) (st : RspStatus) : (refuse st s).SameView (refuse st t) :=
  h.congr_of_frame (fun _ => rfl) rfl

theorem State.SameView.enterErrored_congr (h : s.SameView t) (cause : Byte) :
    (enterErrored cause s).SameView (enterErrored cause t) :=
  h.congr_of_frame (fun _ => rfl) rfl

theorem State.SameView.loopTop_congr (h : s.SameView t) : (loopTop s).SameView (loopTop t) :=
  h.congr_of_frame (fun _ => by simp only [loopTop_eq]) (loopTop_ring s)

theorem State.SameView.endChunk_congr (h : s.SameView t) : (endChunk s).SameView (endChunk t) :=
  h.congr_of_frame (fun _ => by simp only [endChunk_eq]) (by rw [endChunk_eq])

theorem State.SameView.endOpenChunk_congr (h : s.SameView t) : (endOpenChunk s).SameView (endOpenChunk t) :=
  h.congr_of_frame (fun _ => by rw [endOpenChunk_eq, endOpenChunk_eq]; rfl) (by rw [endOpenChunk_eq])

/-- The state machine's register is set alike on both sides. -/
theorem State.SameView.withSt (h : s.SameView t) (st : StreamState) :
    { s with st := st }.SameView { t with st := st } :=
  h.congr_of_frame (f := fun u => { u with st := st }) (fun _ => rfl) rfl

theorem State.SameView.withOffers (h : s.SameView t) (os : List Offer) :
    { s with offers := os }.SameView { t with offers := os } :=
  h.congr_of_frame (f := fun u => { u with offers := os }) (fun _ => rfl) rfl

theorem State.SameView.consume_congr (h : s.SameView t) (m : ConsumerMove) : (consume m s).SameView (consume m t) :=
  h.congr_of_frame (fun _ => by cases m <;> rfl) (by rw [consume_eq])

/-- A frame commit pushes the same sample on the same windows. -/
theorem State.SameView.processBlock_congr (h : s.SameView t) (blk : List Byte) :
    (processBlock s blk).SameView (processBlock t blk) := by
  obtain ⟨r, rfl, hwin⟩ := sameView_iff.1 h
  unfold processBlock
  split
  next => exact ⟨rfl, hwin⟩
  next v _ => exact ⟨rfl, fun c => by simp [emit, State.win, window_commit, hwin]⟩

theorem State.SameView.foldl_processBlock_congr (bs : List (List Byte)) : ∀ {s t : State}, s.SameView t →
    (bs.foldl processBlock s).SameView (bs.foldl processBlock t) := by
  induction bs with
  | nil => exact fun h => h
  | cons b bs ih => exact fun h => ih (h.processBlock_congr b)

theorem State.SameView.feedChunk_congr (h : s.SameView t) (chunk : List Byte) :
    (feedChunk chunk s).SameView (feedChunk chunk t) := by
  obtain ⟨r, rfl, hwin⟩ := sameView_iff.1 h
  exact State.SameView.foldl_processBlock_congr _ ⟨rfl, hwin⟩

/-- The observation point of a chunk does not depend on the ring. -/
theorem State.SameView.markAfter_eq (h : s.SameView t) (b : Byte) : markAfter b t = markAfter b s := by
  obtain ⟨r, rfl, -⟩ := sameView_iff.1 h
  rfl

end Operations

/-! ### The meanings -/

/-- Outcomes look the same when both sides branch on the same condition and each branch does. -/
theorem SameOutcome.ite {p q : Prop} [Decidable p] [Decidable q] {a b a' b' : Host.Outcome State Fault Refusal}
    (hpq : q ↔ p) (ha : p → SameOutcome a a') (hb : ¬ p → SameOutcome b b') :
    SameOutcome (if p then a else b) (if q then a' else b') := by
  by_cases hp : p
  · rw [if_pos hp, if_pos (hpq.2 hp)]; exact ha hp
  · rw [if_neg hp, if_neg (mt hpq.1 hp)]; exact hb hp

section Meanings
variable {s t : State}

theorem State.SameView.st_eq (h : s.SameView t) : t.st = s.st := by rw [h.1]
theorem State.SameView.inChunk_eq (h : s.SameView t) : t.inChunk = s.inChunk := by rw [h.1]; rfl
theorem State.SameView.srcEnabled_eq (h : s.SameView t) : t.srcEnabled = s.srcEnabled := by rw [h.1]; rfl

theorem State.SameView.execStart_congr (h : s.SameView t) : SameOutcome (execStart s) (execStart t) :=
  SameOutcome.ite (by rw [h.st_eq]) (fun _ => h.refuse_congr _) fun _ =>
    (h.withSt .reading).loopTop_congr.respond_congr _ _

theorem State.SameView.execCancel_congr (h : s.SameView t) : SameOutcome (execCancel s) (execCancel t) := by
  obtain ⟨r, rfl, hwin⟩ := sameView_iff.1 h
  exact SameOutcome.ite Iff.rfl (fun _ => ⟨rfl, hwin⟩) fun _ => ⟨rfl, hwin⟩

theorem State.SameView.execBlock_congr (h : s.SameView t) (len : BitVec 5) (p : BitVec 128) :
    SameOutcome (execBlock len p s) (execBlock len p t) :=
  SameOutcome.ite Iff.rfl (fun _ => h.refuse_congr _) fun _ =>
    SameOutcome.ite (by rw [h.inChunk_eq]) (fun _ => rfl) fun _ =>
      SameOutcome.ite (by rw [h.st_eq]) (fun _ => h.refuse_congr _) fun _ =>
        (h.processBlock_congr _).loopTop_congr.respond_congr _ _

theorem State.SameView.execData_congr (h : s.SameView t) (last : Bool) (b : Byte) :
    SameOutcome (execData last b s) (execData last b t) :=
  SameOutcome.ite (by rw [h.srcEnabled_eq])
    (fun _ => SameOutcome.ite Iff.rfl (fun _ => (h.feedChunk_congr [b]).endChunk_congr) fun _ => by
      obtain ⟨r, hfeed, hwin⟩ := sameView_iff.1 (h.feedChunk_congr [b])
      rw [hfeed, h.markAfter_eq]
      exact ⟨rfl, hwin⟩)
    fun _ => rfl

theorem State.SameView.endStream_congr (h : s.SameView t) {effect : State → State}
    (heffect : ∀ {u v : State}, u.SameView v → (effect u).SameView (effect v)) :
    SameOutcome (endStream effect s) (endStream effect t) :=
  SameOutcome.ite (by rw [h.srcEnabled_eq])
    (fun _ => SameOutcome.ite (by rw [h.endOpenChunk_congr.st_eq]) (fun _ => heffect h.endOpenChunk_congr) fun _ =>
      h.endOpenChunk_congr)
    fun _ => rfl

theorem State.SameView.execEos_congr (h : s.SameView t) : SameOutcome (execEos s) (execEos t) :=
  h.endStream_congr fun huv => huv.withSt .closed

theorem State.SameView.execChunk_congr (h : s.SameView t) (bytes : List Byte) :
    SameOutcome (execChunk bytes s) (execChunk bytes t) :=
  SameOutcome.ite (by rw [h.srcEnabled_eq, h.inChunk_eq]) (fun _ => (h.feedChunk_congr bytes).loopTop_congr)
    fun _ => rfl

/-- No meaning tells the two states apart: the queries read windows, the others only carry the ring along. -/
theorem State.SameView.exec_congr (h : s.SameView t) (i : Instr) : SameOutcome (exec i s) (exec i t) := by
  cases i with
  | start => exact h.execStart_congr
  | cancel => exact h.execCancel_congr
  | snapshot ch =>
    simp only [exec, execSnapshot, h.2 ch]
    exact h.respond_congr _ _
  | range ch en =>
    simp only [exec, execRange, h.2 ch]
    exact h.respond_congr _ _
  | status =>
    simp only [exec, execStatus, h.statusWord_eq]
    exact h.respond_congr _ _
  | block len p => exact h.execBlock_congr len p
  | data last b => exact h.execData_congr last b
  | eos => exact h.execEos_congr
  | err cause => exact h.endStream_congr fun huv => huv.enterErrored_congr cause
  | srcRsvd cause => exact h.endStream_congr fun huv => huv.enterErrored_congr cause

end Meanings

/-! ### The choice of an offer, and the step -/

/-- The choice of an offer does not read the ring. -/
theorem select_ring (s : State) (r : RingFifo) (os : List Offer) : ∀ cw sw : Bool,
    { s with ring := r }.select cw sw os = s.select cw sw os := by
  have hcan : ∀ (cw sw : Bool) (o : Offer), { s with ring := r }.canTake cw sw o = s.canTake cw sw o := fun _ _ o => by
    cases o <;> rfl
  induction os with
  | nil => exact fun _ _ => rfl
  | cons o os ih =>
    intro cw sw
    simp only [State.select, hcan, ih]

section Step
variable {s t : State}

theorem State.SameView.nextOffer_eq (h : s.SameView t) : t.nextOffer = s.nextOffer := by
  obtain ⟨r, rfl, -⟩ := sameView_iff.1 h
  exact select_ring s r s.offers false false

theorem State.SameView.acceptsBeat_eq (h : s.SameView t) (i : Instr) : t.acceptsBeat i = s.acceptsBeat i := by
  unfold State.acceptsBeat
  rw [h.endOpenChunk_congr.st_eq]

theorem State.SameView.takeCommand_congr (h : s.SameView t) (cmd : BitVec 32) (p : BitVec 128) :
    SameOutcome (takeCommand cmd p s) (takeCommand cmd p t) := by
  unfold takeCommand
  split
  next i _ => exact h.exec_congr i
  next => exact h.refuse_congr _

/-- A reset leaves nothing of either ring. -/
theorem State.SameView.resetBlock_congr (h : s.SameView t) : (resetBlock s).SameView (resetBlock t) := by
  obtain ⟨r, rfl, -⟩ := sameView_iff.1 h
  exact State.SameView.refl _

theorem State.SameView.takeOffer_congr (h : s.SameView t) (o : Offer) (rest : List Offer) :
    SameOutcome (takeOffer o rest s) (takeOffer o rest t) := by
  cases o with
  | rst => exact (h.withOffers rest).resetBlock_congr
  | command cmd p => exact (h.withOffers rest).takeCommand_congr cmd p
  | beat b =>
    exact SameOutcome.ite (by rw [h.acceptsBeat_eq]) (fun _ => (h.withOffers rest).exec_congr _) fun _ =>
      h.exec_congr _
  | chunk bytes => exact (h.withOffers rest).execChunk_congr bytes
  | consumer m => exact (h.withOffers rest).consume_congr m

end Step

/-- Settles O18: both states take the same offer, and taking it carries the view along. -/
theorem ringRegistersUnobservable : Obligations.RingRegistersUnobservable := by
  intro s t h
  unfold step
  rw [h.nextOffer_eq]
  split
  next o rest _ => exact h.takeOffer_congr o rest
  next => exact rfl

end Sys2Proof.Machine
end

section
/-! PROOFS. Reset, and the control invariant: what the state after reset meets (O43, O58), and that every step keeps the
invariant (O54). -/

namespace Sys2Proof.Machine

/-! ### Reset -/

/-- An empty ring has empty windows. -/
theorem window_of_count_zero {r : RingFifo} (h : r.count = 0) (c : Channel) : r.window c = [] :=
  List.eq_nil_of_length_eq_zero (by rw [window_length, h]; rfl)

/-- A reset from any state meets the control invariant. -/
theorem resetBlock_inv (s : State) : (resetBlock s).Inv where
  carry_short := Nat.zero_le _
  chunk_reading := fun h => nomatch h
  mark_short := fun _ h => nomatch h
  cancel_waits := fun h => nomatch h
  cancelled_requested := fun h => nomatch h
  opened_fresh := fun _ => ⟨rfl, rfl, rfl⟩

/-- Settles O43: a reset offered first can always be taken, and the step that takes it is `resetBlock`. -/
theorem resetFromAnyState : Obligations.ResetFromAnyState := by
  constructor
  · intro s os ho
    exact nextOffer_head ho rfl
  · intro s rest ho
    exact ⟨resetBlock { s with offers := rest }, step_of_nextOffer ho, rfl, rfl, rfl,
      fun c => window_of_count_zero rfl c, rfl, rfl, rfl, rfl, rfl, rfl⟩

/-- Settles O58: with no event sent, every window is empty and no event is fatal or illegal. -/
theorem resetMeetsTheInvariants : Obligations.ResetMeetsTheInvariants := by
  refine ⟨resetBlock_inv State.reset, fun c => window_of_count_zero rfl c, ⟨?_, ?_, ?_⟩, ?_⟩
  · exact fun e he => absurd he List.not_mem_nil
  · exact fun h => nomatch h
  · rintro ⟨e, he, -⟩
    nomatch he
  · exact fun e he => absurd he List.not_mem_nil

/-! ### The control invariant -/

section Control
variable {s t : State}

/-- The control invariant does not speak of the offers, the consumer, the responses and the fault bit. -/
theorem State.Inv.environment (h : s.Inv) (os : List Offer) (ow : Option Nat) (rs : List Response) (pe : Bool) :
    { s with offers := os, outStall := ow, rsp := rs, progErr := pe }.Inv :=
  ⟨h.carry_short, h.chunk_reading, h.mark_short, h.cancel_waits, h.cancelled_requested, h.opened_fresh⟩

/-- The control invariant between chunks, once START has been taken. -/
theorem inv_of_no_chunk (hcarry : t.carry.length ≤ Config.frameSize - 1) (hmark : t.chunkMark = none)
    (hopened : t.st ≠ .opened) (hreading : t.st = .reading → t.cancelReq = false)
    (hcancelled : t.st = .cancelled → t.cancelReq = true) : t.Inv where
  carry_short := hcarry
  chunk_reading := fun h => by simp [State.inChunk, hmark] at h
  mark_short := fun n h => by simp [hmark] at h
  cancel_waits := fun hr hc => by simp [hreading hr] at hc
  cancelled_requested := hcancelled
  opened_fresh := fun h => absurd h hopened

/-- The control invariant once loop top has run between chunks (R162). -/
theorem inv_of_loop_top (hcarry : t.carry.length ≤ Config.frameSize - 1) (hmark : t.chunkMark = none)
    (hst : t.st = if t.cancelReq = true then .cancelled else .reading) : t.Inv := by
  cases hc : t.cancelReq with
  | false =>
    have hr : t.st = .reading := by simpa [hc] using hst
    exact inv_of_no_chunk hcarry hmark (by simp [hr]) (fun _ => hc) (by simp [hr])
  | true =>
    have hr : t.st = .cancelled := by simpa [hc] using hst
    exact inv_of_no_chunk hcarry hmark (by simp [hr]) (by simp [hr]) (fun _ => hc)

/-- The control invariant inside a chunk. -/
theorem inv_of_chunk {n : Nat} (hcarry : t.carry.length ≤ Config.frameSize - 1) (hmark : t.chunkMark = some n)
    (hn : n ≤ Config.frameSize - 1) (hst : t.st = .reading) : t.Inv where
  carry_short := hcarry
  chunk_reading := fun _ => hst
  mark_short := fun m h => by
    obtain rfl : n = m := Option.some.inj (hmark.symm.trans h)
    exact hn
  cancel_waits := fun _ _ => by simp [State.inChunk, hmark]
  cancelled_requested := fun h => by simp [hst] at h
  opened_fresh := fun h => by simp [hst] at h

/-- Outside READING no chunk is in progress. -/
theorem State.Inv.mark_of_not_reading (h : s.Inv) (hst : s.st ≠ .reading) : s.chunkMark = none :=
  chunkMark_of_inChunk_false (Bool.eq_false_iff.2 (mt h.chunk_reading hst))

/-- In READING between chunks no cancellation waits. -/
theorem State.Inv.clear_between_chunks (h : s.Inv) (hst : s.st = .reading) (hi : s.inChunk = false) :
    s.cancelReq = false :=
  Bool.eq_false_iff.2 fun hc => by simp [h.cancel_waits hst hc] at hi

/-- The carry length that STATUS shows is below a frame. -/
theorem State.Inv.carryShown_short (h : s.Inv) : s.carryShown ≤ Config.frameSize - 1 := by
  cases hm : s.chunkMark with
  | none => rw [carryShown_of_inChunk_false (by simp [State.inChunk, hm])]; exact h.carry_short
  | some n => rw [carryShown_of_chunkMark hm]; exact h.mark_short n hm

/-- So is the carry length at the observation point after the next byte of a chunk. -/
theorem State.Inv.markAfter_short (h : s.Inv) (b : Byte) : markAfter b s ≤ Config.frameSize - 1 := by
  unfold markAfter
  split
  · exact h.carryShown_short
  · exact feed_rest_length s.carry [b]

/-- CANCEL keeps the control invariant: between chunks it leaves READING, and inside one it waits (R165). -/
theorem State.Inv.cancel (h : s.Inv) :
    { s with cancelReq := true, st := if s.st = .reading ∧ s.inChunk = false then .cancelled else s.st : State }.Inv := by
  by_cases hpull : s.st = .reading ∧ s.inChunk = false
  · exact inv_of_loop_top h.carry_short (chunkMark_of_inChunk_false hpull.2) (if_pos hpull)
  · rw [if_neg hpull]
    refine ⟨h.carry_short, h.chunk_reading, h.mark_short, fun hr _ => ?_, fun _ => rfl, h.opened_fresh⟩
    exact eq_true_of_ne_false fun hi => hpull ⟨hr, hi⟩

/-- Every effect of a step keeps the control invariant. -/
theorem Effect.keeps_inv {o : Offer} (e : Effect s o t) (h : s.Inv) : t.Inv := by
  have hfed : ∀ bytes, (feed s.carry bytes).2.length ≤ Config.frameSize - 1 := feed_rest_length s.carry
  cases e with
  | reset os => exact resetBlock_inv { s with offers := os }
  | consumed => exact h.environment _ _ _ _
  | illegal => exact h.environment _ _ _ _
  | startRefused => exact h.environment _ _ _ _
  | started _ _ _ _ hs => exact inv_of_loop_top h.carry_short (h.mark_of_not_reading (by simp [hs])) rfl
  | cancelled => exact h.cancel.environment _ _ _ _
  | snapshot => exact h.environment _ _ _ _
  | range => exact h.environment _ _ _ _
  | status => exact h.environment _ _ _ _
  | blockRefused => exact h.environment _ _ _ _
  | blockShort _ _ _ _ _ _ _ hi => exact inv_of_loop_top h.carry_short (chunkMark_of_inChunk_false hi) rfl
  | blockFull _ _ _ _ _ _ _ hi => exact inv_of_loop_top h.carry_short (chunkMark_of_inChunk_false hi) rfl
  | data _ last d =>
    cases last with
    | false => exact inv_of_chunk (hfed [d]) rfl (h.markAfter_short d) rfl
    | true => exact inv_of_loop_top (hfed [d]) rfl rfl
  | closed => exact inv_of_no_chunk h.carry_short rfl (by simp) (by simp) (by simp)
  | errored => exact inv_of_no_chunk h.carry_short rfl (by simp) (by simp) (by simp)
  | endedByBeat _ _ _ hc => exact inv_of_no_chunk h.carry_short rfl (by simp) (by simp) (fun _ => hc)
  | chunk bytes _ _ hi =>
    obtain ⟨hr, hi, hc⟩ := hi
    exact inv_of_no_chunk (hfed bytes) (chunkMark_of_inChunk_false hi) (by simp [hr]) (fun _ => hc) (by simp [hr])

end Control

/-- Settles O54: a step has one of the effects, and each keeps the invariant. -/
theorem stepKeepsControlInvariant : Obligations.StepKeepsControlInvariant := by
  intro s t h hstep
  obtain ⟨o, rest, -, e⟩ := step_effect hstep
  exact e.keeps_inv h

end Sys2Proof.Machine
end

section
/-! PROOFS. The STATUS word as a number, the windows' one length (O17), and the fault bit (O46). -/

namespace Sys2Proof.Machine

/-- The STATUS word as a number (R86). -/
theorem statusWord_toNat (s : State) : s.statusWord.toNat =
    512 * (s.wlen % 32) + 256 * s.progErr.toNat + 128 * s.cancelReq.toNat + 8 * (s.carryShown % 16) +
      s.st.code.toNat := by
  simp only [State.statusWord, append_toNat, BitVec.toNat_ofNat, BitVec.toNat_ofBool]
  omega

/-- Every window has as many values as the ring's `count`. -/
theorem win_length (s : State) (c : Channel) : (s.win c).length = s.ring.count.val := window_length s.ring c

/-- Settles O17: the windows share one `count`, which fits its five bits of the STATUS word. -/
theorem windowsHaveOneLength : Obligations.WindowsHaveOneLength := by
  intro s c
  have hcount : s.ring.count.val ≤ 20 := Nat.le_of_lt_succ s.ring.count.isLt
  have hlen : s.wlen = s.ring.count.val := win_length s 0
  refine ⟨(win_length s c).trans (win_length s 0).symm, (win_length s c).trans_le hcount,
    (win_length s c).trans hlen.symm, ?_⟩
  have hp := Bool.toNat_lt s.progErr
  have hq := Bool.toNat_lt s.cancelReq
  have hst := s.st.code.isLt
  rw [statusWord_toNat]
  omega

/-! ### The fault bit -/

/-- A step that is no reset is answered with a refusal, and sets the fault bit, or leaves it as it is and answers OK or not at
all (R25, R204, R205). -/
theorem Effect.answer {s t : State} {o : Offer} (e : Effect s o t) (ho : o ≠ .rst) :
    (t.progErr = true ∧ ∃ r, t.rsp = s.rsp ++ [r] ∧ r.status ≠ .ok) ∨
    (t.progErr = s.progErr ∧ (t.rsp = s.rsp ∨ ∃ r, t.rsp = s.rsp ++ [r] ∧ r.status = .ok)) := by
  cases e with
  | reset => exact absurd rfl ho
  | illegal => exact .inl ⟨rfl, _, rfl, by simp⟩
  | startRefused => exact .inl ⟨rfl, _, rfl, by simp⟩
  | blockRefused => exact .inl ⟨rfl, _, rfl, by simp⟩
  | started => exact .inr ⟨rfl, .inr ⟨_, rfl, rfl⟩⟩
  | cancelled => exact .inr ⟨rfl, .inr ⟨_, rfl, rfl⟩⟩
  | snapshot => exact .inr ⟨rfl, .inr ⟨_, rfl, rfl⟩⟩
  | range => exact .inr ⟨rfl, .inr ⟨_, rfl, rfl⟩⟩
  | status => exact .inr ⟨rfl, .inr ⟨_, rfl, rfl⟩⟩
  | blockShort => exact .inr ⟨rfl, .inr ⟨_, rfl, rfl⟩⟩
  | blockFull => exact .inr ⟨rfl, .inr ⟨_, rfl, rfl⟩⟩
  | consumed => exact .inr ⟨rfl, .inl rfl⟩
  | data => exact .inr ⟨rfl, .inl rfl⟩
  | closed => exact .inr ⟨rfl, .inl rfl⟩
  | errored => exact .inr ⟨rfl, .inl rfl⟩
  | endedByBeat => exact .inr ⟨rfl, .inl rfl⟩
  | chunk => exact .inr ⟨rfl, .inl rfl⟩

/-- A step that is no reset has an effect of the offer it takes. -/
theorem StepOf.effect {s t : State} {o : Offer} (h : StepOf s o t) : Effect s o t ∧ o ≠ .rst := by
  obtain ⟨rest, ho, hrst, hstep⟩ := h
  obtain ⟨o', rest', ho', e⟩ := step_effect hstep
  obtain ⟨rfl, -⟩ : o = o' ∧ rest = rest' := by simpa using ho.symm.trans ho'
  exact ⟨e, hrst⟩

/-- Settles O46: a response is appended once, so a step that answers OK appends no refusal beside it. -/
theorem progErrRecordsRefusals : Obligations.ProgErrRecordsRefusals := by
  constructor
  · intro s
    have hp := Bool.toNat_lt s.progErr
    have hq := Bool.toNat_lt s.cancelReq
    have hst := s.st.code.isLt
    rw [statusWord_toNat]
    omega
  · intro s t o h
    obtain ⟨e, ho⟩ := h.effect
    rcases e.answer ho with ⟨hset, hrefused⟩ | ⟨hkept, hrsp⟩
    · exact iff_of_true hset (.inr hrefused)
    · have hnone : ¬ ∃ r, t.rsp = s.rsp ++ [r] ∧ r.status ≠ .ok := by
        rintro ⟨r, hr, hstatus⟩
        rcases hrsp with hsame | ⟨r', hr', hok⟩
        · simp [hsame] at hr
        · obtain rfl : r' = r := by simpa using hr'.symm.trans hr
          exact hstatus hok
      rw [hkept, or_iff_left hnone]

end Sys2Proof.Machine
end

section
/-! PROOFS. A legal command word is the encoding of its command, and the edges of the state machine (O44). -/

namespace Sys2Proof.Machine

/-! ### Command words -/

/-- A command word is determined by its fields (R72). -/
theorem cmd_eq_of_fields {cmd : BitVec 32} (hr : (cmdFields cmd).rsvd = 0) :
    cmd = cmdWord (cmdFields cmd).op (cmdFields cmd).ch (cmdFields cmd).en (cmdFields cmd).len := by
  obtain ⟨hop, hch, hen, hlen, hrsvd⟩ := cmdFields_toNat cmd
  have h0 : cmd.toNat / 4096 = 0 := by rw [← hrsvd, hr]; rfl
  apply BitVec.eq_of_toNat_eq
  rw [cmdWord_toNat, hop, hch, hen, hlen]
  omega

theorem channelBits_channel (ch : BitVec 2) : channelBits ⟨ch.toNat, ch.isLt⟩ = ch := BitVec.ofNat_toNat 2 ch

theorem bit_beq_one (en : BitVec 1) : bit (en == 1) = en := by revert en; decide

/-- The word of an op that uses no field (R73). -/
theorem cmdWord_of_unused {f : CmdFields} {n : BitVec 4} (hop : f.op.toNat = n.toNat)
    (hunused : f.ch = 0 ∧ f.en = 0 ∧ f.len = 0) : cmdWord f.op f.ch f.en f.len = cmdWord n 0 0 0 := by
  obtain ⟨hch, hen, hlen⟩ := hunused
  rw [BitVec.eq_of_toNat_eq hop, hch, hen, hlen]

/-- Fields that stand for a command are the fields of its encoding (R73, R74). -/
theorem encode_of_decodeFields {f : CmdFields} {p : BitVec 128} {i : Instr} (h : decodeFields f p = .ok i) :
    ∃ q, encode i = .control (cmdWord f.op f.ch f.en f.len) q := by
  have hop : ∀ n : BitVec 4, f.op.toNat = n.toNat → f.op = n := fun n => BitVec.eq_of_toNat_eq
  unfold decodeFields at h
  simp only [channelOf_ok] at h
  split at h
  case h_1 hn =>
    split at h <;> cases h
    next hz => exact ⟨0, by rw [cmdWord_of_unused (n := 1) hn hz]; rfl⟩
  case h_2 hn =>
    split at h <;> cases h
    next hz => exact ⟨0, by rw [cmdWord_of_unused (n := 2) hn hz]; rfl⟩
  case h_3 hn =>
    split at h <;> cases h
    next hz => exact ⟨0, by rw [encode, channelBits_channel, hop 3 hn, hz.1, hz.2]⟩
  case h_4 hn =>
    split at h <;> cases h
    next hlen => exact ⟨0, by rw [encode, channelBits_channel, bit_beq_one, hop 4 hn, hlen]⟩
  case h_5 hn =>
    split at h <;> cases h
    next hz => exact ⟨0, by rw [cmdWord_of_unused (n := 5) hn hz]; rfl⟩
  case h_6 hn =>
    split at h
    next hz =>
      split at h <;> cases h
      exact ⟨p, by rw [encode, hop 6 hn, hz.1, hz.2]⟩
    next => cases h
  case h_7 => cases h

/-- A legal command word is the encoding of its command (R73, R74). -/
theorem encode_of_decodeCommand {cmd : BitVec 32} {p : BitVec 128} {i : Instr} (h : decodeCommand cmd p = .ok i) :
    ∃ q, encode i = .control cmd q := by
  unfold decodeCommand at h
  split at h
  case isTrue => cases h
  case isFalse hr =>
    rw [cmd_eq_of_fields (not_not.1 hr)]
    exact encode_of_decodeFields h

/-- The word of START (R73). -/
theorem cmd_of_decode_start {cmd : BitVec 32} {p : BitVec 128} (h : decodeCommand cmd p = .ok .start) : cmd = 1 := by
  obtain ⟨q, hq⟩ := encode_of_decodeCommand h
  obtain ⟨rfl, -⟩ := PortWord.control.inj hq
  decide

/-- The word of CANCEL (R73). -/
theorem cmd_of_decode_cancel {cmd : BitVec 32} {p : BitVec 128} (h : decodeCommand cmd p = .ok .cancel) : cmd = 2 := by
  obtain ⟨q, hq⟩ := encode_of_decodeCommand h
  obtain ⟨rfl, -⟩ := PortWord.control.inj hq
  decide

/-! ### The edges -/

/-- Between chunks a state that meets the control invariant has nothing to cancel, so loop top leaves it in READING. -/
theorem State.Inv.loop_top_stays {s : State} (h : s.Inv) (hst : s.st = .reading) (hi : s.inChunk = false) :
    (if s.cancelReq = true then StreamState.cancelled else .reading) = s.st := by
  rw [h.clear_between_chunks hst hi, hst]
  rfl

/-- Settles O44: of the effects that can change `st`, each is one of the edges; a BLOCK's loop top is none, as no cancellation
waits between chunks. -/
theorem stateMachineEdges : Obligations.StateMachineEdges := by
  intro s t o hinv hstep hne
  obtain ⟨e, ho⟩ := hstep.effect
  cases e with
  | reset => exact absurd rfl ho
  | consumed => exact absurd rfl hne
  | illegal => exact absurd rfl hne
  | startRefused => exact absurd rfl hne
  | started cmd p _ h hs =>
    obtain rfl := cmd_of_decode_start h
    exact .inl ⟨hs, ⟨p, rfl⟩, rfl⟩
  | cancelled cmd p _ h =>
    obtain rfl := cmd_of_decode_cancel h
    by_cases hpull : s.st = .reading ∧ s.inChunk = false
    · exact .inr (.inr (.inr (.inl ⟨hpull.1, if_pos hpull, hpull.2, p, rfl⟩)))
    · exact absurd (if_neg hpull) hne
  | snapshot => exact absurd rfl hne
  | range => exact absurd rfl hne
  | status => exact absurd rfl hne
  | blockRefused => exact absurd rfl hne
  | blockShort _ _ _ _ _ _ _ hi _ hs => exact absurd (hinv.loop_top_stays hs hi) hne
  | blockFull _ _ _ _ _ _ _ hi _ hs => exact absurd (hinv.loop_top_stays hs hi) hne
  | data b last d _ _ h hp =>
    obtain ⟨hs, hpull⟩ := hp
    by_cases hends : (last && s.cancelReq) = true
    · obtain ⟨rfl, hc⟩ : last = true ∧ s.cancelReq = true := by simpa using hends
      have hi : s.inChunk = true := by simpa [hc] using hpull
      exact .inr (.inr (.inr (.inr ⟨hs, if_pos hends, hi, hc, b, rfl, by simp [h]⟩)))
    · exact absurd ((if_neg hends).trans hs.symm) hne
  | closed b _ h hs => exact .inr (.inl ⟨hs, rfl, b, rfl, h⟩)
  | errored b c _ h hs => exact .inr (.inr (.inl ⟨hs, rfl, b, c, rfl, h⟩))
  | endedByBeat b h hs hc hi => exact .inr (.inr (.inr (.inr ⟨hs, rfl, hi, hc, b, rfl, h false⟩)))
  | chunk => exact absurd rfl hne

end Sys2Proof.Machine
end

section
/-! PROOFS. The output stream: what a step can send (O47), and that a fatal event stays the last (O56). -/

namespace Sys2Proof.Machine

/-! ### What a step sends -/

section Sends
variable {s t : State} {o : Offer}

theorem isFatal_of_mem_map_sample {vs : List Sample} : ∀ e ∈ vs.map OutEvent.sample, e.isFatal = false := by
  intro e he
  obtain ⟨v, -, rfl⟩ := List.mem_map.1 he
  rfl

/-- A step that is no reset sends nothing and neither enters nor leaves ERRORED, or it sends in READING: events that are not
fatal, without entering ERRORED, or one fatal event, entering it (R173, R176). -/
theorem Effect.sends (e : Effect s o t) (ho : o ≠ .rst) :
    (t.out = s.out ∧ (t.st = .errored ↔ s.st = .errored)) ∨
    (s.st = .reading ∧ t.st ≠ .errored ∧ ∃ es, t.out = s.out ++ es ∧ ∀ e ∈ es, e.isFatal = false) ∨
    (s.st = .reading ∧ t.st = .errored ∧ ∃ e, t.out = s.out ++ [e] ∧ e.isFatal = true) := by
  have hlooped : ∀ c : Bool, (if c = true then StreamState.cancelled else .reading) ≠ .errored := by decide
  cases e with
  | reset => exact absurd rfl ho
  | consumed => exact .inl ⟨rfl, Iff.rfl⟩
  | illegal => exact .inl ⟨rfl, Iff.rfl⟩
  | startRefused => exact .inl ⟨rfl, Iff.rfl⟩
  | started _ _ _ _ hs => exact .inl ⟨rfl, iff_of_false (hlooped _) (by simp [hs])⟩
  | cancelled =>
    refine .inl ⟨rfl, ?_⟩
    by_cases hpull : s.st = .reading ∧ s.inChunk = false <;> simp [hpull]
  | snapshot => exact .inl ⟨rfl, Iff.rfl⟩
  | range => exact .inl ⟨rfl, Iff.rfl⟩
  | status => exact .inl ⟨rfl, Iff.rfl⟩
  | blockRefused => exact .inl ⟨rfl, Iff.rfl⟩
  | blockShort _ _ _ _ _ _ _ _ _ hs => exact .inr (.inl ⟨hs, hlooped _, _, rfl, by simp [OutEvent.isFatal]⟩)
  | blockFull _ _ _ _ _ _ _ _ _ hs => exact .inr (.inl ⟨hs, hlooped _, _, rfl, by simp [OutEvent.isFatal]⟩)
  | data _ _ _ _ _ _ hp => exact .inr (.inl ⟨hp.1, hlooped _, _, rfl, isFatal_of_mem_map_sample⟩)
  | closed _ _ _ hs => exact .inl ⟨rfl, by simp [hs]⟩
  | errored _ _ _ _ hs => exact .inr (.inr ⟨hs, rfl, _, rfl, rfl⟩)
  | endedByBeat _ _ hs => exact .inl ⟨rfl, by simp [hs]⟩
  | chunk _ _ _ hi => exact .inr (.inl ⟨hi.1, by simp [hi.1], _, rfl, isFatal_of_mem_map_sample⟩)

end Sends

/-- Settles O47: of the three ways a step can send, the two that append something are in READING. -/
theorem outputStreamOnlyGrows : Obligations.OutputStreamOnlyGrows := by
  intro s t o h
  obtain ⟨e, ho⟩ := h.effect
  rcases e.sends ho with ⟨hout, -⟩ | ⟨hs, -, es, hout, -⟩ | ⟨hs, -, e, hout, -⟩
  · exact ⟨[], by simp [hout], fun h => absurd rfl h⟩
  · exact ⟨es, hout, fun _ => hs⟩
  · exact ⟨[e], hout, fun _ => hs⟩

/-! ### The fatal event -/

section Fatal
variable {s t : State}

/-- Outside ERRORED the invariant says that the stream holds no fatal event. -/
theorem fatalIsLast_iff_of_not_errored (hs : s.st ≠ .errored) :
    s.FatalIsLast ↔ ∀ e ∈ s.out, e.isFatal = false := by
  constructor
  · rintro ⟨hinit, hlast⟩ e he
    have hne : s.out ≠ [] := List.ne_nil_of_mem he
    rw [← List.dropLast_append_getLast hne, List.mem_append, List.mem_singleton] at he
    rcases he with he | rfl
    · exact hinit e he
    · exact Bool.eq_false_iff.2 fun hf => hs (hlast.2 ⟨_, List.getLast?_eq_some_getLast hne, hf⟩)
  · intro h
    refine ⟨fun e he => h e (List.mem_of_mem_dropLast he), iff_of_false hs ?_⟩
    rintro ⟨e, he, hf⟩
    simp [h e (List.mem_of_getLast? he)] at hf

/-- The invariant reads the stream and whether the state is ERRORED, and nothing else. -/
theorem State.FatalIsLast.congr (h : s.FatalIsLast) (hout : t.out = s.out) (hst : t.st = .errored ↔ s.st = .errored) :
    t.FatalIsLast := by
  obtain ⟨hinit, hlast⟩ := h
  exact ⟨by rwa [hout], by rwa [hout, hst]⟩

/-- Every effect of a step keeps a fatal event the last. -/
theorem Effect.keeps_fatalIsLast {o : Offer} (e : Effect s o t) (h : s.FatalIsLast) : t.FatalIsLast := by
  by_cases ho : o = .rst
  · subst ho
    cases e with | reset =>
    exact (fatalIsLast_iff_of_not_errored (by simp [State.reset])).2 fun e he => absurd he List.not_mem_nil
  · have hold : s.st = .reading → ∀ e ∈ s.out, e.isFatal = false := fun hs =>
      (fatalIsLast_iff_of_not_errored (by simp [hs])).1 h
    rcases e.sends ho with ⟨hout, hst⟩ | ⟨hs, ht, es, hout, hes⟩ | ⟨hs, ht, e, hout, hfatal⟩
    · exact h.congr hout hst
    · rw [fatalIsLast_iff_of_not_errored ht, hout]
      exact List.forall_mem_append.2 ⟨hold hs, hes⟩
    · exact ⟨by simpa [hout] using hold hs, iff_of_true ht ⟨e, by simp [hout], hfatal⟩⟩

end Fatal

/-- Settles O56: a fatal event is sent in READING only, where the stream holds none yet, and ends the stream in ERRORED. -/
theorem stepKeepsFatalEventLast : Obligations.StepKeepsFatalEventLast := by
  intro s t h hstep
  obtain ⟨o, rest, -, e⟩ := step_effect hstep
  exact e.keeps_fatalIsLast h

end Sys2Proof.Machine
end

section
/-! PROOFS. The frames of a stream, counted from its start (O14). -/

namespace Sys2Proof.Machine

/-- Chunks fed one after another are fed as the one chunk they join to (R113). -/
theorem feedMany_eq_feed_flatten (chunks : List (List Byte)) : ∀ carry : List Byte, carry.length < Config.frameSize →
    feedMany carry chunks = feed carry chunks.flatten := by
  induction chunks with
  | nil =>
    intro carry h
    rw [List.flatten_nil, feed_of_lt carry [] (by simpa using h), List.append_nil]
    rfl
  | cons c cs ih =>
    intro carry _
    have hrest : (feed carry c).2.length < Config.frameSize := Nat.lt_of_le_pred (by decide) (feed_rest_length carry c)
    rw [List.flatten_cons, feed_append, ← ih _ hrest]
    rfl

/-- The frames cut from a buffer are its consecutive groups of 16 bytes. -/
theorem feed_nil_frames (buf : List Byte) :
    (feed [] buf).1 = (List.range (buf.length / 16)).map fun k => (buf.drop (16 * k)).take 16 := by
  induction hn : buf.length / 16 generalizing buf with
  | zero =>
    have hlt : buf.length < Config.frameSize := by simp only [Config.frameSize]; omega
    rw [feed_of_lt [] buf hlt]
    rfl
  | succ n ih =>
    have hge : Config.frameSize ≤ buf.length := by simp only [Config.frameSize]; omega
    have hrest : (buf.drop 16).length / 16 = n := by rw [List.length_drop]; omega
    have hnext : (feed [] (buf.drop 16)).1 = (List.range n).map fun k => (buf.drop (16 * (k + 1))).take 16 := by
      simp only [ih _ hrest, List.drop_drop, Nat.mul_succ, Nat.add_comm]
    rw [feed_of_le [] buf hge, List.range_succ_eq_map, List.map_cons, List.map_map]
    exact congrArg (buf.take 16 :: ·) hnext

/-- Settles O14: the chunks join to one buffer, and its frames are its groups of 16 bytes. -/
theorem framesAlignedToStreamStart : Obligations.FramesAlignedToStreamStart := by
  intro chunks
  rw [feedMany_eq_feed_flatten chunks [] (by decide), feed_nil_frames]
  refine ⟨by simp, ?_⟩
  intro k f hf
  rw [List.getElem?_map, Option.map_eq_some_iff] at hf
  obtain ⟨i, hi, rfl⟩ := hf
  obtain ⟨hk, rfl⟩ : k < chunks.flatten.length / 16 ∧ k = i := by simpa [List.getElem?_eq_some_iff] using hi
  refine ⟨by rw [List.length_take, List.length_drop]; omega, fun j hj => ?_⟩
  rw [List.getElem?_take_of_lt hj, List.getElem?_drop]

end Sys2Proof.Machine
end

section
/-! PROOFS. A chunk's observation point: what a DATA beat leaves in the mark (O32), and the STATUS that shows it (O26). -/

namespace Sys2Proof.Machine

/-- A byte that completes no frame leaves the observation point where it was (R60). -/
theorem markAfter_of_lt {s : State} (h : s.carry.length < 15) (b : Byte) : markAfter b s = s.carryShown := by
  rw [markAfter, feed_byte_lt s.carry b h]

/-- The byte that completes a frame makes a new observation point, with an empty carry (R60). -/
theorem markAfter_of_full {s : State} (h : s.carry.length = 15) (b : Byte) : markAfter b s = 0 := by
  rw [markAfter, feed_byte_full s.carry b h]
  rfl

/-- A DATA beat within a chunk feeds its byte and sets the mark (R91). -/
theorem execData_more {s : State} (h : s.Pulling) (b : Byte) :
    execData false b s = .next { feedChunk [b] s with chunkMark := some (markAfter b s) } := by
  rw [execData, if_pos ((srcEnabled_iff s).2 h), if_neg (by decide)]

/-- Settles O32: the mark after the beat is `markAfter`, which a frame commit sets to 0 and any other byte leaves. -/
theorem chunkMarkIsTheObservationPoint : Obligations.ChunkMarkIsTheObservationPoint := by
  intro b s hp _
  refine ⟨_, execData_more hp b, ?_, ?_, ?_⟩
  · intro hfull
    rw [markAfter_of_full hfull]
  · intro hlt hnone
    have hi : s.inChunk = false := by simp [State.inChunk, hnone]
    rw [markAfter_of_lt hlt, carryShown_of_inChunk_false hi]
  · intro n hlt hmark
    rw [markAfter_of_lt hlt, carryShown_of_chunkMark hmark]

/-- The code of a stream state is its number (R20). -/
theorem code_toNat (st : StreamState) : st.code.toNat = stateNumber st := by cases st <;> rfl

/-- Settles O26: the STATUS word shows the mark as the carry's length, and no field overflows its bits. -/
theorem statusInsideChunk : Obligations.StatusInsideChunk := by
  intro s n hmark hn
  refine ⟨s.statusWord, rfl, ?_⟩
  have hlen : (s.win 0).length ≤ 20 := (win_length s 0).trans_le (Nat.le_of_lt_succ s.ring.count.isLt)
  rw [statusWord_toNat, carryShown_of_chunkMark hmark, code_toNat, State.wlen]
  omega

end Sys2Proof.Machine
end

section
/-! PROOFS. The responses: one to each command (O48), and queries that change nothing else (O30). -/

namespace Sys2Proof.Machine

/-- A step that takes no command, and is no reset, leaves the responses as they are (R62). -/
theorem Effect.rsp_of_not_command {s t : State} {o : Offer} (e : Effect s o t) (ho : o ≠ .rst)
    (hport : o.onControl = false) : t.rsp = s.rsp := by
  cases o with
  | rst => exact absurd rfl ho
  | command => cases hport
  | beat => cases e <;> rfl
  | chunk => cases e; rfl
  | consumer => cases e; rfl

/-- Settles O48: each effect of a command appends the one response of its row. -/
theorem oneResponsePerCommand : Obligations.OneResponsePerCommand := by
  intro s t o hstep
  obtain ⟨e, ho⟩ := hstep.effect
  refine ⟨?_, e.rsp_of_not_command ho⟩
  rintro cmd p rfl
  cases e with
  | illegal => exact ⟨_, rfl, fun _ => rfl, fun h => nomatch h⟩
  | startRefused => exact ⟨_, rfl, fun _ => rfl, fun h => nomatch h⟩
  | blockRefused => exact ⟨_, rfl, fun _ => rfl, fun h => nomatch h⟩
  | started _ _ _ h => exact ⟨_, rfl, fun _ => rfl, fun _ => ⟨_, h, rfl⟩⟩
  | cancelled _ _ _ h => exact ⟨_, rfl, fun _ => rfl, fun _ => ⟨_, h, rfl⟩⟩
  | blockShort _ _ _ _ _ _ h => exact ⟨_, rfl, fun _ => rfl, fun _ => ⟨_, h, rfl⟩⟩
  | blockFull _ _ _ _ _ _ h => exact ⟨_, rfl, fun _ => rfl, fun _ => ⟨_, h, rfl⟩⟩
  | snapshot _ _ _ _ _ h hd =>
    exact ⟨_, rfl, fun hne => absurd rfl hne, fun _ => ⟨_, h, by simp [hd, snapshotOf]⟩⟩
  | range _ _ _ _ _ _ h hd => exact ⟨_, rfl, fun hne => absurd rfl hne, fun _ => ⟨_, h, by simp [hd]⟩⟩
  | status _ _ _ _ h hd => exact ⟨_, rfl, fun hne => absurd rfl hne, fun _ => ⟨_, h, by simp [hd]⟩⟩

/-- A query answers with the same beats whatever has been answered before, and appends the response only (R58). -/
theorem exec_query {q : Instr} (hq : (∃ ch, q = .snapshot ch) ∨ (∃ ch en, q = .range ch en) ∨ q = .status)
    (s : State) : ∃ r, ∀ rs, exec q { s with rsp := rs } = .next { s with rsp := rs ++ [r] } := by
  rcases hq with ⟨ch, rfl⟩ | ⟨ch, en, rfl⟩ | rfl
  · exact ⟨⟨.ok, (snapshotOf Config.windowCapacity (s.win ch)).map entryWord⟩, fun _ => rfl⟩
  · exact ⟨⟨.ok, [boundWord (rangeOf Config.params (s.win ch) en).1, boundWord (rangeOf Config.params (s.win ch) en).2]⟩,
      fun _ => rfl⟩
  · exact ⟨⟨.ok, [s.statusWord]⟩, fun _ => rfl⟩

/-- Settles O30: the beats of a query do not depend on the responses, all that the first one changed. -/
theorem queriesHaveNoSideEffect : Obligations.QueriesHaveNoSideEffect := by
  intro q s hq
  obtain ⟨r, hr⟩ := exec_query hq s
  refine ⟨r, hr s.rsp, ?_⟩
  rw [hr (s.rsp ++ [r]), List.append_assoc]
  rfl

end Sys2Proof.Machine
end

section
/-! PROOFS. The two decoders on the words of every instruction: the round trip (O1), what each kind of beat is (O4), and which
command words are legal (O2, O3). -/

namespace Sys2Proof.Machine

/-! ### Source beats -/

/-- The lowest byte of a beat (R76). -/
theorem beatByte_eq (b : BitVec 11) : b.extractLsb' 0 8 = BitVec.ofNat 8 (b.toNat % 256) := by
  apply BitVec.eq_of_toNat_eq
  simp

/-- The `last` bit of a beat (R76). -/
theorem beatLast_eq (b : BitVec 11) : (b.extractLsb' 8 1 == 1) = decide (b.toNat / 256 % 2 = 1) := by
  rw [Bool.eq_iff_iff, beq_iff_eq, decide_eq_true_iff, ← BitVec.toNat_inj, BitVec.extractLsb'_toNat,
    Nat.shiftRight_eq_div_pow]
  rfl

/-- A beat of kind 1 is EOS (R77). -/
theorem decodeBeat_of_kind_one {b : BitVec 11} (h : b.toNat / 512 = 1) : decodeBeat b = .eos := by
  unfold decodeBeat; rw [beatKind_toNat, h]; rfl

/-- A beat of kind 2 is ERR (R77). -/
theorem decodeBeat_of_kind_two {b : BitVec 11} (h : b.toNat / 512 = 2) :
    decodeBeat b = .err (BitVec.ofNat 8 (b.toNat % 256)) := by
  unfold decodeBeat; rw [beatKind_toNat, h, beatByte_eq]; rfl

/-- A beat of kind 3 is the reserved kind (R77). -/
theorem decodeBeat_of_kind_three {b : BitVec 11} (h : b.toNat / 512 = 3) :
    decodeBeat b = .srcRsvd (BitVec.ofNat 8 (b.toNat % 256)) := by
  unfold decodeBeat; rw [beatKind_toNat, h, beatByte_eq]; rfl

/-- Settles O4: one equation a kind, the byte and the `last` bit read as numbers. -/
theorem sourceBeatKinds : Obligations.SourceBeatKinds := by
  intro b
  refine ⟨fun h => ?_, decodeBeat_of_kind_one, decodeBeat_of_kind_two, decodeBeat_of_kind_three⟩
  rw [decodeBeat_of_kind_zero h, beatLast_eq, beatByte_eq]

/-- The kind of a beat built of its fields (R76). -/
theorem srcBeat_kind (kind : BitVec 2) (last : BitVec 1) (data : Byte) :
    (srcBeat kind last data).toNat / 512 = kind.toNat := by
  have := last.isLt
  have := data.isLt
  rw [srcBeat_toNat]
  omega

/-- The byte of a beat built of its fields (R76). -/
theorem srcBeat_byte (kind : BitVec 2) (last : BitVec 1) (data : Byte) :
    BitVec.ofNat 8 ((srcBeat kind last data).toNat % 256) = data := by
  have := data.isLt
  apply BitVec.eq_of_toNat_eq
  rw [srcBeat_toNat, BitVec.toNat_ofNat]
  omega

/-! ### Command words -/

/-- A command word built of its fields has these fields, and no reserved bit (R72). -/
theorem cmdFields_cmdWord (op : BitVec 4) (ch : BitVec 2) (en : BitVec 1) (len : BitVec 5) :
    cmdFields (cmdWord op ch en len) = ⟨op, ch, en, len, 0⟩ := by
  obtain ⟨hop, hch, hen, hlen, hrsvd⟩ := cmdFields_toNat (cmdWord op ch en len)
  rw [cmdWord_toNat] at hop hch hen hlen hrsvd
  have := op.isLt
  have := ch.isLt
  have := en.isLt
  have := len.isLt
  rw [CmdFields.mk.injEq]
  refine ⟨?_, ?_, ?_, ?_, ?_⟩ <;> apply BitVec.eq_of_toNat_eq
  · omega
  · omega
  · omega
  · omega
  · rw [hrsvd]; exact Nat.div_eq_of_lt (by omega)

/-- A command word built of its fields is decoded by them. -/
theorem decodeCommand_cmdWord (op : BitVec 4) (ch : BitVec 2) (en : BitVec 1) (len : BitVec 5) (p : BitVec 128) :
    decodeCommand (cmdWord op ch en len) p = decodeFields ⟨op, ch, en, len, 0⟩ p := by
  rw [decodeCommand, cmdFields_cmdWord, if_neg (by simp)]

theorem channelOf_channelBits (ch : Channel) : channelOf (channelBits ch) = .ok ch := by revert ch; decide

theorem bit_beq (en : Bool) : (bit en == 1) = en := by cases en <;> rfl

/-! The word of each command stands for it, whatever the payload (R73, R75). -/

theorem decode_startWord (p : BitVec 128) : decodeCommand (cmdWord 1 0 0 0) p = .ok .start := by
  rw [decodeCommand_cmdWord]; rfl

theorem decode_cancelWord (p : BitVec 128) : decodeCommand (cmdWord 2 0 0 0) p = .ok .cancel := by
  rw [decodeCommand_cmdWord]; rfl

theorem decode_snapshotWord (ch : Channel) (p : BitVec 128) :
    decodeCommand (cmdWord 3 (channelBits ch) 0 0) p = .ok (.snapshot ch) := by
  rw [decodeCommand_cmdWord]; simp [decodeFields, channelOf_channelBits]

theorem decode_rangeWord (ch : Channel) (en : Bool) (p : BitVec 128) :
    decodeCommand (cmdWord 4 (channelBits ch) (bit en) 0) p = .ok (.range ch en) := by
  rw [decodeCommand_cmdWord]; simp only [decodeFields, channelOf_channelBits, bit_beq]; rfl

theorem decode_statusWord (p : BitVec 128) : decodeCommand (cmdWord 5 0 0 0) p = .ok .status := by
  rw [decodeCommand_cmdWord]; rfl

theorem decode_blockWord {len : BitVec 5} (h : len.toNat ≤ 16) (p : BitVec 128) :
    decodeCommand (cmdWord 6 0 0 len) p = .ok (.block len p) := by
  rw [decodeCommand_cmdWord]; simp [decodeFields, h]

/-- Settles O1: a command word is decoded by the fields it is built of, a beat by its kind, byte and `last` bit. -/
theorem encodedInstrDecodesToItself : Obligations.EncodedInstrDecodesToItself := by
  intro i hwf
  have beat : ∀ {b : BitVec 11} {i : Instr}, decodeBeat b = i → decode (.source b) = .ok i := congrArg Except.ok
  cases i with
  | start => exact decode_startWord 0
  | cancel => exact decode_cancelWord 0
  | snapshot ch => exact decode_snapshotWord ch 0
  | range ch en => exact decode_rangeWord ch en 0
  | status => exact decode_statusWord 0
  | block len p => exact decode_blockWord (of_decide_eq_true hwf) p
  | data last d => exact beat (by rw [decodeBeat_srcBeat_data, bit_beq])
  | eos => exact beat (decodeBeat_of_kind_one (srcBeat_kind 1 0 0))
  | err cause => exact beat (by rw [decodeBeat_of_kind_two (srcBeat_kind 2 0 cause), srcBeat_byte])
  | srcRsvd cause => exact beat (by rw [decodeBeat_of_kind_three (srcBeat_kind 3 0 cause), srcBeat_byte])

/-! ### Legal command words -/

/-- The payload of a decoded BLOCK is the one sampled with its word (R75). -/
theorem decode_block_payload {cmd : BitVec 32} {p q : BitVec 128} {len : BitVec 5}
    (h : decodeCommand cmd p = .ok (.block len q)) : q = p := by
  obtain ⟨q', hq⟩ := encode_of_decodeCommand h
  obtain ⟨rfl, -⟩ := PortWord.control.inj hq
  rw [decode_blockWord (decode_block_len h)] at h
  cases h
  rfl

/-- Settles O2: the word is the encoding's, a BLOCK keeps its payload, and every other command has the payload 0. -/
theorem legalCommandWordIsItsEncoding : Obligations.LegalCommandWordIsItsEncoding := by
  intro cmd p i h
  obtain ⟨q, hq⟩ := encode_of_decodeCommand h
  rcases decode_command_kind h with rfl | rfl | ⟨ch, rfl⟩ | ⟨ch, en, rfl⟩ | rfl | ⟨len, p', rfl⟩
  case inr.inr.inr.inr.inr =>
    obtain rfl := decode_block_payload h
    exact ⟨decide_eq_true (decode_block_len h), q, hq, .inl (PortWord.control.inj hq).2.symm⟩
  all_goals exact ⟨rfl, q, hq, .inr (PortWord.control.inj hq).2.symm⟩

/-- A guarded decoding fails where the guard does, or what it guards. -/
theorem guard_error_iff {c : Prop} [Decidable c] {r : Except IllegalCmd Instr} {e₀ : IllegalCmd} :
    (∃ e, (if c then r else .error e₀) = .error e) ↔ (c → ∃ e, r = .error e) := by
  by_cases h : c <;> simp [h]

/-- Which fields stand for no command, as numbers (R74 (a), (c), (d)). -/
theorem decodeFields_error_iff (f : CmdFields) (p : BitVec 128) :
    (∃ e, decodeFields f p = .error e) ↔
      (f.op.toNat = 0 ∨ 7 ≤ f.op.toNat) ∨
      ((f.op.toNat = 1 ∨ f.op.toNat = 2 ∨ f.op.toNat = 5) ∧ (f.ch.toNat ≠ 0 ∨ f.en.toNat ≠ 0 ∨ f.len.toNat ≠ 0)) ∨
      (f.op.toNat = 3 ∧ (f.en.toNat ≠ 0 ∨ f.len.toNat ≠ 0)) ∨ (f.op.toNat = 4 ∧ f.len.toNat ≠ 0) ∨
      (f.op.toNat = 6 ∧ (f.ch.toNat ≠ 0 ∨ f.en.toNat ≠ 0)) ∨ (f.op.toNat = 6 ∧ 16 < f.len.toNat) := by
  have hch : f.ch = 0 ↔ f.ch.toNat = 0 := BitVec.toNat_inj.symm
  have hen : f.en = 0 ↔ f.en.toNat = 0 := BitVec.toNat_inj.symm
  have hlen : f.len = 0 ↔ f.len.toNat = 0 := BitVec.toNat_inj.symm
  unfold decodeFields
  simp only [channelOf_ok, hch, hen, hlen, Config.frameSize]
  split
  case h_7 h1 h2 h3 h4 h5 h6 =>
    have hreserved : f.op.toNat = 0 ∨ 7 ≤ f.op.toNat := by
      simp only [imp_false] at h1 h2 h3 h4 h5 h6
      omega
    exact iff_of_true ⟨_, rfl⟩ (.inl hreserved)
  all_goals
    next hop => simp [guard_error_iff, hop, imp_iff_not_or, or_assoc]

/-- Settles O3: the reserved bits are looked at first, then the fields by their op; no channel of two bits is out of range. -/
theorem illegalCommandWords : Obligations.IllegalCommandWords := by
  rintro cmd p op ch en len rsvd rfl rfl rfl rfl rfl
  obtain ⟨hop, hch, hen, hlen, hrsvd⟩ := cmdFields_toNat cmd
  have hzero : (cmdFields cmd).rsvd ≠ 0 ↔ cmd.toNat / 4096 ≠ 0 := by rw [← hrsvd]; exact BitVec.toNat_inj.symm.not
  have hfields := decodeFields_error_iff (cmdFields cmd) p
  rw [hop, hch, hen, hlen] at hfields
  unfold decodeCommand
  by_cases h : cmd.toNat / 4096 = 0
  · have hchannel : ¬ 4 ≤ cmd.toNat / 16 % 4 := by omega
    rw [if_neg (by rw [hzero]; exact not_not.2 h), hfields]
    simp only [h, hchannel, ne_eq, not_true_eq_false, false_or, and_false, or_false]
  · rw [if_pos (hzero.2 h)]
    exact iff_of_true ⟨_, rfl⟩ (.inr (.inl h))

/-- Settles O6, word by word. -/
theorem specWordsDecode : Obligations.SpecWordsDecode := by
  unfold Obligations.SpecWordsDecode
  decide

end Sys2Proof.Machine
end

section
/-! PROOFS. Bytes on the two input ports: the beats of a chunk (O5), and the payload of a listed BLOCK (O7). -/

namespace Sys2Proof.Machine

/-! ### The beats of a chunk -/

/-- The beats of a chunk, each from its byte and whether it is the final one (R78). -/
theorem chunkBeats_eq_mapIdx (bytes : List Byte) :
    chunkBeats bytes = bytes.mapIdx fun k b => srcBeat 0 (bit (decide (k + 1 = bytes.length))) b := by
  induction bytes using chunkBeats.induct with
  | case1 => rfl
  | case2 b => rfl
  | case3 b bs hne ih =>
    obtain ⟨b', bs, rfl⟩ := List.exists_cons_of_ne_nil hne
    rw [chunkBeats, ih, List.mapIdx_cons (l := b' :: bs)]
    · simp [bit]
    · exact hne

/-- Settles O5: beat `k` is built of byte `k`, and a DATA beat decodes to what it is built of. -/
theorem chunkIsDataBeats : Obligations.ChunkIsDataBeats := by
  intro bytes
  rw [chunkBeats_eq_mapIdx]
  refine ⟨List.length_mapIdx, fun k b hb => ?_⟩
  rw [List.getElem?_mapIdx, hb, Option.map_some, Option.map_some, decodeBeat_srcBeat_data, bit_beq]

/-! ### The payload of a listed BLOCK -/

/-- A byte packed before a list is its digit below the list's, to the base 256; what is above 16 bytes is lost. -/
theorem packBytes_cons_toNat (b : Byte) (bs : List Byte) :
    (packBytes (b :: bs)).toNat = (b.toNat + 256 * (packBytes bs).toNat) % 2 ^ 128 := by
  have hb := b.isLt
  have hlow : b.toNat % 2 ^ 128 = b.toNat := by omega
  have hhigh : (packBytes bs).toNat <<< 8 % 2 ^ 128 = ((packBytes bs).toNat % 2 ^ 120) <<< 8 := by
    simp only [Nat.shiftLeft_eq]; omega
  rw [packBytes, BitVec.toNat_or, BitVec.toNat_shiftLeft, BitVec.toNat_setWidth, hlow, hhigh, Nat.or_comm,
    or_shiftLeft _ _ 8 hb]
  omega

/-- The lowest byte of a packed list is its first (R75). -/
theorem packBytes_byte_zero (b : Byte) (bs : List Byte) : (packBytes (b :: bs)).extractLsb' 0 8 = b := by
  have hb := b.isLt
  apply BitVec.eq_of_toNat_eq
  rw [BitVec.extractLsb'_toNat, packBytes_cons_toNat, Nat.shiftRight_zero]
  omega

/-- The bytes above it are the rest of the list (R75). -/
theorem packBytes_byte_succ (b : Byte) (bs : List Byte) {k : Nat} (hk : k < 15) :
    (packBytes (b :: bs)).extractLsb' (8 * (k + 1)) 8 = (packBytes bs).extractLsb' (8 * k) 8 := by
  ext i hi
  have h128 : 8 * (k + 1) + i < 128 := by omega
  have h8 : ¬ 8 * (k + 1) + i < 8 := by omega
  have hsub : 8 * (k + 1) + i - 8 = 8 * k + i := by omega
  have hb : b.getLsbD (8 * (k + 1) + i) = false := BitVec.getLsbD_of_ge b _ (by omega)
  have hbit : (packBytes bs).getLsbD (8 * k + i) = (packBytes bs)[8 * k + i]'(by omega) := BitVec.getLsbD_eq_getElem _
  simp [packBytes, h128, h8, hsub, hb, hbit]

/-- Byte `k` of a packed list is its `k`-th. -/
theorem packBytes_byte (bytes : List Byte) : ∀ k (hk : k < bytes.length), k < 16 →
    (packBytes bytes).extractLsb' (8 * k) 8 = bytes[k] := by
  induction bytes with
  | nil => exact fun k hk _ => absurd hk (Nat.not_lt_zero k)
  | cons b bs ih =>
    rintro (_ | k) hk h16
    · exact packBytes_byte_zero b bs
    · rw [packBytes_byte_succ b bs (by omega)]
      exact ih k (Nat.lt_of_succ_lt_succ hk) (by omega)

/-- A payload packed from at most 16 bytes holds these bytes (R75, R94). -/
theorem blockBytes_packBytes {bytes : List Byte} (h : bytes.length ≤ 16) {len : BitVec 5}
    (hlen : len.toNat = bytes.length) : blockBytes len (packBytes bytes) = bytes := by
  refine List.ext_getElem (by rw [blockBytes_length, hlen]) fun k _ hk => ?_
  simp only [blockBytes, List.getElem_map, List.getElem_range]
  exact packBytes_byte bytes k hk (by omega)

/-- The bytes of a value, packed before a list, are the value as one digit to the base `2^32` (R95). -/
theorem packBytes_leBytes_append_toNat (v : U32) (bs : List Byte) :
    (packBytes (leBytes v ++ bs)).toNat = (v.toNat + 2 ^ 32 * (packBytes bs).toNat) % 2 ^ 128 := by
  simp only [leBytes, List.cons_append, List.nil_append, packBytes_cons_toNat, BitVec.extractLsb'_toNat,
    Nat.shiftRight_eq_div_pow]
  omega

/-- The payload of a packed frame is its four values side by side (R95). -/
theorem packBytes_sampleBytes_toNat (v : Sample) : (packBytes v.bytes).toNat =
    v.ch0.toNat + 2 ^ 32 * v.ch1.toNat + 2 ^ 64 * v.ch2.toNat + 2 ^ 96 * v.ch3.toNat := by
  have h0 := v.ch0.isLt
  have h1 := v.ch1.isLt
  have h2 := v.ch2.isLt
  have h3 := v.ch3.isLt
  have hempty : (packBytes []).toNat = 0 := rfl
  rw [Sample.bytes, ← List.append_nil (leBytes v.ch0 ++ leBytes v.ch1 ++ leBytes v.ch2 ++ leBytes v.ch3)]
  simp only [List.append_assoc, packBytes_leBytes_append_toNat, hempty]
  omega

/-- A block of at most 16 listed bytes is offered as a word with its length and a payload of its bytes (R73, R94). -/
theorem offerOf_blockInstr {bytes : List Byte} (h : bytes.length ≤ 16) : ∃ len : BitVec 5, len.toNat = bytes.length ∧
    offerOf (blockInstr bytes) = .command (cmdWord 6 0 0 len) (packBytes bytes) :=
  ⟨BitVec.ofNat 5 bytes.length, by rw [BitVec.toNat_ofNat]; omega, rfl⟩

/-- The command word of a block as a number (R73). -/
theorem blockWord_toNat (len : BitVec 5) : (cmdWord 6 0 0 len).toNat = 6 + 128 * len.toNat := by
  rw [cmdWord_toNat]; rfl

/-- Settles O7: a listed block is encoded with its length and its packed bytes; `block16` packs the 16 bytes of its frame. -/
theorem listedBlockCarriesItsBytes : Obligations.ListedBlockCarriesItsBytes := by
  constructor
  · intro bytes h
    obtain ⟨len, hlen, hoffer⟩ := offerOf_blockInstr h
    exact ⟨_, _, len, congrArg ([·]) hoffer, by rw [blockWord_toNat, hlen],
      decode_blockWord (hlen.trans_le h) _, hlen, blockBytes_packBytes h hlen⟩
  · intro v
    have h16 : v.bytes.length = 16 := rfl
    obtain ⟨len, hlen, hoffer⟩ := offerOf_blockInstr h16.le
    exact ⟨_, _, congrArg ([·]) hoffer, by rw [blockWord_toNat, hlen, h16], packBytes_sampleBytes_toNat v⟩

end Sys2Proof.Machine
end

section
/-! PROOFS. What the block sends back, as numbers: output events (O8), responses (O9), and the answers of the queries SNAPSHOT
(O19) and STATUS (O25). -/

namespace Sys2Proof.Machine

/-! ### Events and responses -/

/-- The data of a SAMPLE as a number (R81). -/
theorem sample_data_toNat (v : Sample) : (OutEvent.sample v).data.toNat =
    v.ch0.toNat + 2 ^ 32 * v.ch1.toNat + 2 ^ 64 * v.ch2.toNat + 2 ^ 96 * v.ch3.toNat := by
  simp only [OutEvent.data, append_toNat]
  omega

/-- The data of an ERROR as a number (R82). -/
theorem error_data_toNat (code : ErrCode) (fatal : Bool) (info : Byte) :
    (OutEvent.error code fatal info).data.toNat = code.code.toNat + 16 * fatal.toNat + 32 * info.toNat := by
  simp only [OutEvent.data, append_toNat, BitVec.toNat_ofBool, BitVec.toNat_ofNat]
  omega

/-- Settles O8: the fields of each event side by side, as a sum. -/
theorem outputEventBits : Obligations.OutputEventBits := by
  refine ⟨fun v => ⟨rfl, sample_data_toNat v⟩, fun code fatal info => ⟨rfl, ?_⟩⟩
  rw [error_data_toNat]
  cases code <;> rfl

/-- Settles O9: a response has one beat for each data word. -/
theorem responseBeats : Obligations.ResponseBeats := by
  intro r
  refine ⟨List.length_mapIdx, fun i b hb => ?_⟩
  rw [Response.beats, List.getElem?_mapIdx, Option.map_eq_some_iff] at hb
  obtain ⟨d, hd, rfl⟩ := hb
  refine ⟨?_, hd, beq_iff_eq⟩
  cases r.status <;> rfl

/-! ### Queries -/

/-- Where the encoding of a command is one word and a word's payload does not matter, that word and no other stands for it. -/
theorem decodeCommand_iff_toNat {i : Instr} {w cmd : BitVec 32} {p : BitVec 128} (henc : encode i = .control w 0)
    (hdec : ∀ p, decodeCommand w p = .ok i) : decodeCommand cmd p = .ok i ↔ cmd.toNat = w.toNat := by
  rw [BitVec.toNat_inj]
  constructor
  · intro h
    obtain ⟨q, hq⟩ := encode_of_decodeCommand h
    exact (PortWord.control.inj (hq.symm.trans henc)).1
  · rintro rfl
    exact hdec p

/-- A SNAPSHOT entry as a number: the present bit above the value (R87). -/
theorem entryWord_some_toNat (v : U32) : (entryWord (some v)).toNat = 2 ^ 32 + v.toNat := by
  simp only [entryWord, append_toNat, BitVec.toNat_ofNat]
  omega

/-- Position `i` of a SNAPSHOT is that of the window (R124). -/
theorem snapshotOf_getElem? {cap i : Nat} (h : i < cap) (w : List U32) : (snapshotOf cap w)[i]? = some w[i]? := by
  simp [snapshotOf, h]

/-- Settles O19: each of the 20 beats is the entry of the window at its position. -/
theorem snapshotReturnsTheWindow : Obligations.SnapshotReturnsTheWindow := by
  constructor
  · intro cmd p ch
    have hword : (cmdWord 3 (channelBits ch) 0 0).toNat = 3 + 16 * ch.val := by
      rw [cmdWord_toNat]; revert ch; decide
    rw [← hword]
    exact decodeCommand_iff_toNat rfl (decode_snapshotWord ch)
  · intro ch s
    refine ⟨_, rfl, by simp [snapshotOf], fun i hi => ?_⟩
    rw [List.getElem?_map, snapshotOf_getElem? hi, Option.map_some, Option.map_some]
    cases (s.win ch)[i]? with
    | none => rfl
    | some v => exact congrArg some (entryWord_some_toNat v)

/-- Settles O25: between chunks the STATUS word shows the carry's length, and no field overflows its bits. -/
theorem statusShowsTheState : Obligations.StatusShowsTheState := by
  constructor
  · intro cmd p
    exact decodeCommand_iff_toNat (w := cmdWord 5 0 0 0) rfl decode_statusWord
  · intro s hi hcarry
    refine ⟨s.statusWord, rfl, ?_⟩
    have hlen : (s.win 0).length ≤ 20 := (win_length s 0).trans_le (Nat.le_of_lt_succ s.ring.count.isLt)
    rw [statusWord_toNat, carryShown_of_inChunk_false hi, code_toNat, State.wlen]
    omega

end Sys2Proof.Machine
end

section
/-! PROOFS. A DATA beat, byte by byte (O31): the values of a full frame, and a byte that completes one or does not. -/

namespace Sys2Proof.Machine

/-- A full block decodes to its little-endian values (R100, R101). -/
theorem decodeFrame_of_full {blk : List Byte} (h : blk.length = 16) :
    ∃ v, decodeFrame blk = .ok v ∧ ∀ c, (v.ch c).toNat = groupValue blk c := by
  refine ⟨⟨frameWord blk 0, frameWord blk 1, frameWord blk 2, frameWord blk 3⟩, ?_, fun c => ?_⟩
  · rw [decodeFrame, if_neg (by simp [h])]
  · have hch : Sample.ch ⟨frameWord blk 0, frameWord blk 1, frameWord blk 2, frameWord blk 3⟩ c = frameWord blk c.val := by
      fin_cases c <;> rfl
    rw [hch, frameWord, leWord_toNat, groupValue]

/-- A frame commit keeps the last CAP values of every window (R122, R121). -/
theorem window_commit_lastN (r : RingFifo) (v : Sample) (c : Channel) :
    (r.commit v).window c = lastN 20 (r.window c ++ [v.ch c]) := by
  rw [window_commit, push_eq_lastN _ _ ((window_length r c).trans_le (Nat.le_of_lt_succ r.count.isLt))]

/-- A byte that completes no frame joins the carry (R110). -/
theorem feedChunk_byte_of_lt {s : State} (h : s.carry.length < 15) (b : Byte) :
    feedChunk [b] s = { s with carry := s.carry ++ [b] } := by
  rw [feedChunk, feed_byte_lt s.carry b h]
  rfl

/-- The byte that completes a frame commits it and empties the carry (R110, R161). -/
theorem feedChunk_byte_of_full {s : State} (h : s.carry.length = 15) (b : Byte) :
    ∃ v, (∀ c, (v.ch c).toNat = groupValue (s.carry ++ [b]) c) ∧
      feedChunk [b] s = { s with carry := [], ring := s.ring.commit v, out := s.out ++ [.sample v] } := by
  obtain ⟨v, hdecode, hvalue⟩ := decodeFrame_of_full (blk := s.carry ++ [b]) (by simp [h])
  refine ⟨v, hvalue, ?_⟩
  rw [feedChunk, feed_byte_full s.carry b h, List.foldl_cons, List.foldl_nil, processBlock, hdecode]
  rfl

/-- Where the source port pulls, a DATA beat feeds its byte, and `last` ends the chunk and runs loop top (R91, R162). -/
theorem execData_of_pulling {s : State} (h : s.Pulling) (last : Bool) (b : Byte) :
    execData last b s = .next { feedChunk [b] s with
      chunkMark := if last then none else some (markAfter b s),
      st := if last && s.cancelReq then .cancelled else .reading } := by
  rw [execData, if_pos ((srcEnabled_iff s).2 h)]
  cases last with
  | false => simp [← h.1]
  | true => simp [endChunk_eq, h.1]

/-- Settles O31: the two ways of a byte, under what the beat does to the chunk. -/
theorem dataBeatFeedsOneByte : Obligations.DataBeatFeedsOneByte := by
  intro last b s hp hcarry
  refine ⟨_, execData_of_pulling hp last b, ?_, by cases last <;> rfl, ?_, ?_⟩
  · rw [feedChunk_eq]
  · intro hlt
    rw [feedChunk_byte_of_lt hlt]
    exact ⟨rfl, rfl, rfl⟩
  · intro hfull
    obtain ⟨v, hvalue, hfed⟩ := feedChunk_byte_of_full hfull b
    rw [hfed]
    exact ⟨rfl, v, rfl, fun c => ⟨hvalue c, window_commit_lastN s.ring v c⟩⟩

end Sys2Proof.Machine
end

section
/-! PROOFS. What a port waits for: a chunk in progress (O52), a full output (O53), the command of the same cycle (O51); and the
kinds of event that a step sends (O57). -/

namespace Sys2Proof.Machine

/-! ### Offers that wait -/

/-- A source event is taken only on a ready source port (R91). -/
theorem srcReady_of_nextOffer {s : State} {o : Offer} {rest : List Offer} (h : s.nextOffer = some (o, rest))
    (ho : o.onSource = true) : s.srcReady = true := by
  obtain ⟨⟨cw, sw, hc⟩, -⟩ := nextOffer_some h
  cases o with
  | beat b => exact (Bool.and_eq_true_iff.1 hc).2
  | chunk bytes => exact (Bool.and_eq_true_iff.1 (Bool.and_eq_true_iff.1 hc).1).2
  | rst => cases ho
  | command => cases ho
  | consumer => cases ho

/-- A legal BLOCK is taken only between chunks and with room on the output (R93, R244). -/
theorem block_of_nextOffer {s : State} {cmd : BitVec 32} {p q : BitVec 128} {len : BitVec 5} {rest : List Offer}
    (h : s.nextOffer = some (.command cmd p, rest)) (hb : decodeCommand cmd p = .ok (.block len q)) :
    s.inChunk = false ∧ s.outFull = false := by
  obtain ⟨⟨cw, sw, hc⟩, -⟩ := nextOffer_some h
  have hready : s.ctlReady cmd = true := (Bool.and_eq_true_iff.1 hc).2
  rw [ctlReady_block hb] at hready
  simpa using hready

/-- With OUT_DEPTH events held the output is full (R244). -/
theorem outFull_of_held {s : State} {taken : Nat} (hstall : s.outStall = some taken)
    (hheld : Config.outSpare + 1 ≤ s.out.length - taken) : s.outFull = true := by
  have hne : s.out.length - taken ≠ 0 := by omega
  simp [State.outFull, State.outHeld, hstall, hne, Nat.lt_of_succ_le hheld]

/-- Settles O53: a full output makes the source port not ready, and holds a legal BLOCK. -/
theorem fullOutputStopsIntake : Obligations.FullOutputStopsIntake := by
  refine ⟨?_, outFull_of_none⟩
  intro s o rest taken hstall hheld ho
  have hfull := outFull_of_held hstall hheld
  constructor
  · refine Bool.eq_false_iff.2 fun hsrc => ?_
    simp [((srcReady_iff s).1 (srcReady_of_nextOffer ho hsrc)).2] at hfull
  · rintro cmd p len q rfl hb
    simp [(block_of_nextOffer ho hb).2] at hfull

/-- Inside a chunk with the token set, a step that is no reset stays in the chunk and READING, or ends the chunk in CANCELLED
(R93). -/
theorem Effect.in_cancelled_chunk {s t : State} {o : Offer} (e : Effect s o t) (ho : o ≠ .rst) (hr : s.st = .reading)
    (hi : s.inChunk = true) (hc : s.cancelReq = true) :
    (t.inChunk = true ∧ t.st = .reading) ∨ (t.inChunk = false ∧ t.st = .cancelled) := by
  cases e with
  | reset => exact absurd rfl ho
  | consumed => exact .inl ⟨hi, hr⟩
  | illegal => exact .inl ⟨hi, hr⟩
  | startRefused => exact .inl ⟨hi, hr⟩
  | started _ _ _ _ hs => simp [hr] at hs
  | cancelled => exact .inl ⟨hi, by simp [hr, hi]⟩
  | snapshot => exact .inl ⟨hi, hr⟩
  | range => exact .inl ⟨hi, hr⟩
  | status => exact .inl ⟨hi, hr⟩
  | blockRefused _ _ _ _ _ _ hi' => simp [hi] at hi'
  | blockShort _ _ _ _ _ _ _ hi' => simp [hi] at hi'
  | blockFull _ _ _ _ _ _ _ hi' => simp [hi] at hi'
  | data _ last =>
    cases last with
    | false => exact .inl ⟨rfl, rfl⟩
    | true => exact .inr ⟨rfl, if_pos hc⟩
  | closed _ _ _ _ hc' => simp [hc] at hc'
  | errored _ _ _ _ _ hc' => simp [hc] at hc'
  | endedByBeat => exact .inr ⟨rfl, rfl⟩
  | chunk _ _ _ hidle => simp [hidle.2.1] at hi

/-- Settles O52: the control port holds a legal BLOCK, and no effect ends the chunk without cancelling. -/
theorem chunkInProgressHoldsBlockAndCancel : Obligations.ChunkInProgressHoldsBlockAndCancel := by
  intro s t o hinv hi hstep
  constructor
  · rintro cmd p len q rfl hb
    obtain ⟨rest, ho, -, -⟩ := hstep
    simp [(block_of_nextOffer ho hb).1] at hi
  · intro hc
    obtain ⟨e, ho⟩ := hstep.effect
    exact e.in_cancelled_chunk ho (hinv.chunk_reading hi) hi hc

/-! ### One cycle, both ports -/

/-- The control port is ready for CANCEL in every state (R93, R165). -/
theorem ctlReady_cancel (s : State) : s.ctlReady 2 = true := by
  have h : decodeCommand 2 0 = .ok .cancel := decode_cancelWord 0
  rw [State.ctlReady, h]

/-- A command that the control port can take is the next offer of its cycle, and the beat stays offered (R92). -/
theorem nextOffer_sameCycle {s : State} {cmd : BitVec 32} {p : BitVec 128} {b : BitVec 11} {os : List Offer}
    (ho : s.offers = sameCycle cmd p b ++ os) (hready : s.ctlReady cmd = true) :
    s.nextOffer = some (.command cmd p, .beat b :: os) :=
  nextOffer_head ho (by simp [State.canTake, hready])

/-- CANCEL between chunks leaves READING at once (R165). -/
theorem execCancel_of_between_chunks {s : State} (hr : s.st = .reading) (hi : s.inChunk = false) :
    execCancel s = .next (respond .ok [0] { s with cancelReq := true, st := .cancelled }) :=
  if_pos ⟨hr, hi⟩

/-- Settles O51: the command is the first offer of the cycle; after a CANCEL the block is no longer READING. -/
theorem controlGoesFirstInACycle : Obligations.ControlGoesFirstInACycle := by
  refine ⟨fun s cmd p b os ho hready => nextOffer_sameCycle ho hready, ?_⟩
  intro s p b os ho hr hi
  have htake : step s = takeCommand 2 p { s with offers := .beat b :: os } :=
    step_of_nextOffer (nextOffer_sameCycle ho (ctlReady_cancel s))
  have hdecode : decodeCommand 2 p = .ok .cancel := decode_cancelWord p
  rw [takeCommand, hdecode] at htake
  exact ⟨_, htake.trans (execCancel_of_between_chunks hr hi), rfl, rfl, rfl, rfl, rfl, rfl⟩

/-! ### The kinds of event -/

/-- What a step that is no reset sends is legal (R200). -/
theorem Effect.sends_legal {s t : State} {o : Offer} (e : Effect s o t) (ho : o ≠ .rst) :
    ∃ es, t.out = s.out ++ es ∧ ∀ e ∈ es, e.Legal := by
  have nothing : ∃ es, s.out = s.out ++ es ∧ ∀ e ∈ es, e.Legal := ⟨[], by simp, by simp⟩
  have samples : ∀ vs : List Sample, ∀ e ∈ vs.map OutEvent.sample, e.Legal := by simp [OutEvent.Legal]
  cases e with
  | reset => exact absurd rfl ho
  | consumed => exact nothing
  | illegal => exact nothing
  | startRefused => exact nothing
  | started => exact nothing
  | cancelled => exact nothing
  | snapshot => exact nothing
  | range => exact nothing
  | status => exact nothing
  | blockRefused => exact nothing
  | blockShort _ _ _ _ n _ _ _ _ _ hn =>
    refine ⟨_, rfl, List.forall_mem_singleton.2 ⟨rfl, ?_⟩⟩
    exact (BitVec.toNat_ofNat n 8).trans_lt ((Nat.mod_le n _).trans_lt hn)
  | blockFull _ _ _ _ v => exact ⟨_, rfl, samples [v]⟩
  | data _ _ _ vs => exact ⟨_, rfl, samples vs⟩
  | closed => exact nothing
  | errored => exact ⟨_, rfl, List.forall_mem_singleton.2 rfl⟩
  | endedByBeat => exact nothing
  | chunk _ vs => exact ⟨_, rfl, samples vs⟩

/-- Settles O57: a reset empties the stream, and every other step appends legal events only. -/
theorem stepEmitsOnlyLegalEvents : Obligations.StepEmitsOnlyLegalEvents := by
  intro s t h hstep
  obtain ⟨o, rest, -, e⟩ := step_effect hstep
  by_cases ho : o = .rst
  · subst ho
    cases e with | reset =>
    exact fun e he => absurd he List.not_mem_nil
  · obtain ⟨es, hout, hes⟩ := e.sends_legal ho
    rw [hout]
    exact List.forall_mem_append.2 ⟨h, hes⟩

end Sys2Proof.Machine
end

section
/-! PROOFS. The frame decoder: full blocks and short ones (O10), and the round-trip law (O11). -/

namespace Sys2Proof.Machine

/-! ### A full block and a short one -/

/-- A short block is rejected with its length (R100, R102). -/
theorem decodeFrame_of_short {blk : List Byte} (h : blk.length < 16) : decodeFrame blk = .error blk.length := if_pos h

/-- The commit of a short block sends one ERROR event with its length, and changes nothing else (R102, R161). -/
theorem processBlock_of_short {blk : List Byte} (h : blk.length < 16) (s : State) : processBlock s blk =
    { s with out := s.out ++ [.error .frameTooShort false (BitVec.ofNat 8 blk.length)] } := by
  rw [processBlock, decodeFrame_of_short h]
  rfl

/-- The data of a FrameTooShort as a number: its code 1, not fatal, and the length above (R82, R83). -/
theorem frameTooShort_data_toNat {n : Nat} (h : n < 16) :
    (OutEvent.error .frameTooShort false (BitVec.ofNat 8 n)).data.toNat = 1 + 32 * n := by
  have hinfo : (BitVec.ofNat 8 n).toNat = n := by rw [BitVec.toNat_ofNat]; omega
  rw [error_data_toNat, hinfo]
  rfl

/-- Settles O10: a full block decodes to its groups' values; the commit of a short one only reports its length. -/
theorem blockDecodesOrIsReportedShort : Obligations.BlockDecodesOrIsReportedShort :=
  ⟨fun _ h => decodeFrame_of_full h, fun _ s h =>
    ⟨decodeFrame_of_short h, _, processBlock_of_short h s, rfl, frameTooShort_data_toNat h⟩⟩

/-! ### The round trip -/

/-- The word of a value's four bytes is the value (R95, R100). -/
theorem leWord_bytes (v : U32) :
    leWord (v.extractLsb' 0 8) (v.extractLsb' 8 8) (v.extractLsb' 16 8) (v.extractLsb' 24 8) = v := by
  apply BitVec.eq_of_toNat_eq
  simp only [leWord_toNat, BitVec.extractLsb'_toNat, Nat.shiftRight_eq_div_pow]
  omega

/-- Group `c` of a sample's frame is the sample's channel `c` (R95, R101). -/
theorem frameWord_bytes (v : Sample) (c : Channel) : frameWord v.bytes c.val = v.ch c := by
  fin_cases c
  · exact leWord_bytes v.ch0
  · exact leWord_bytes v.ch1
  · exact leWord_bytes v.ch2
  · exact leWord_bytes v.ch3

/-- A sample's frame decodes to the sample (R104). -/
theorem decodeFrame_bytes (v : Sample) : decodeFrame v.bytes = .ok v := by
  have hfull : ¬ v.bytes.length < Config.frameSize := Nat.lt_irrefl 16
  have h0 : frameWord v.bytes 0 = v.ch0 := frameWord_bytes v 0
  have h1 : frameWord v.bytes 1 = v.ch1 := frameWord_bytes v 1
  have h2 : frameWord v.bytes 2 = v.ch2 := frameWord_bytes v 2
  have h3 : frameWord v.bytes 3 = v.ch3 := frameWord_bytes v 3
  rw [decodeFrame, if_neg hfull, h0, h1, h2, h3]

/-- Settles O11: a frame is full, and its four groups are the four values it was built of. -/
theorem codecRoundTrip : Obligations.CodecRoundTrip := fun v => ⟨rfl, decodeFrame_bytes v⟩

end Sys2Proof.Machine
end

section
/-! PROOFS. Feed as division by the frame size: conservation (O12), chunk boundaries (O13), and the empty chunk (O37). -/

namespace Sys2Proof.Machine

/-! ### Conservation -/

/-- What Feed cuts off and what it leaves over are its buffer, in order (R111). -/
theorem feed_nil_conserves (buf : List Byte) : (feed [] buf).1.flatten ++ (feed [] buf).2 = buf := by
  induction hn : buf.length / 16 generalizing buf with
  | zero =>
    have hlt : buf.length < Config.frameSize := by simp only [Config.frameSize]; omega
    rw [feed_of_lt [] buf hlt]
    rfl
  | succ n ih =>
    have hge : Config.frameSize ≤ buf.length := by simp only [Config.frameSize]; omega
    have hrest : (buf.drop 16).length / 16 = n := by rw [List.length_drop]; omega
    rw [feed_of_le [] buf hge, List.flatten_cons, List.append_assoc, List.nil_append, ih _ hrest, List.take_append_drop]

/-- The frames of a Feed followed by the new carry are the old carry followed by the chunk (R111). -/
theorem feed_conserves (carry chunk : List Byte) :
    (feed carry chunk).1.flatten ++ (feed carry chunk).2 = carry ++ chunk := by
  rw [feed_nil_append, feed_nil_conserves]

/-- The number of frames is a quotient (R111). -/
theorem feed_frames_length (carry chunk : List Byte) :
    (feed carry chunk).1.length = (carry.length + chunk.length) / 16 := by
  rw [feed_nil_append, feed_nil_frames, List.length_map, List.length_range, List.length_append]

/-- A frame is one of the buffer's full groups, so it has 16 bytes (R111). -/
theorem feed_frame_length (carry chunk : List Byte) : ∀ f ∈ (feed carry chunk).1, f.length = 16 := by
  intro f hf
  rw [feed_nil_append, feed_nil_frames, List.mem_map] at hf
  obtain ⟨k, hk, rfl⟩ := hf
  have hk : k < (carry ++ chunk).length / 16 := List.mem_range.1 hk
  rw [List.length_take, List.length_drop]
  omega

/-- The new carry's length is a remainder (R111): it is short, and the frames before it are whole. -/
theorem feed_rest_length_eq_mod (carry chunk : List Byte) :
    (feed carry chunk).2.length = (carry.length + chunk.length) % 16 := by
  have hshort : (feed carry chunk).2.length ≤ 15 := feed_rest_length carry chunk
  have hframes : (feed carry chunk).1.flatten.length = (feed carry chunk).1.length * 16 := by
    rw [List.length_flatten, List.sum_eq_card_nsmul _ 16 (by simpa using feed_frame_length carry chunk),
      List.length_map, smul_eq_mul]
  have htotal := congrArg List.length (feed_conserves carry chunk)
  rw [List.length_append, List.length_append, hframes] at htotal
  omega

/-- Settles O12: one Feed conserves its buffer, and a stream is fed as the one chunk it joins to. -/
theorem feedConservesBytes : Obligations.FeedConservesBytes := by
  refine ⟨fun chunks => ?_, fun carry chunk => ⟨feed_conserves carry chunk, feed_frames_length carry chunk,
    feed_rest_length_eq_mod carry chunk, feed_frame_length carry chunk⟩⟩
  rw [feedMany_eq_feed_flatten chunks [] (by decide)]
  exact feed_nil_conserves chunks.flatten

/-! ### Chunk boundaries -/

/-- Settles O13: either sequence is fed as the one chunk that both join to. -/
theorem chunkBoundariesDoNotMatter : Obligations.ChunkBoundariesDoNotMatter := by
  intro carry xs ys hcarry hjoin
  have hlt : carry.length < Config.frameSize := Nat.lt_succ_of_le hcarry
  rw [feedMany_eq_feed_flatten xs carry hlt, feedMany_eq_feed_flatten ys carry hlt, hjoin]

/-! ### The empty chunk -/

/-- Feed of no bytes to a carry below a frame changes nothing (R115). -/
theorem feed_nil_chunk {carry : List Byte} (h : carry.length ≤ 15) : feed carry [] = ([], carry) := by
  have hlt : (carry ++ []).length < Config.frameSize := by rw [List.append_nil]; exact Nat.lt_succ_of_le h
  rw [feed_of_lt carry [] hlt, List.append_nil]

/-- With no frame to commit and the same carry, the state stays (R115). -/
theorem feedChunk_nil {s : State} (h : s.carry.length ≤ 15) : feedChunk [] s = s := by
  rw [feedChunk, feed_nil_chunk h]
  rfl

/-- Settles O37: the event in an idle state is `feedChunk`, and no bytes make no frame. -/
theorem emptyChunkChangesNothing : Obligations.EmptyChunkChangesNothing :=
  ⟨fun _ h => feed_nil_chunk h, fun s hidle h => by rw [execChunk_of_idle hidle, feedChunk_nil h]⟩

end Sys2Proof.Machine
end

section
/-! PROOFS. The windows: the registers of a commit (O15), pushes in a row (O16), and that the windows follow the stream (O55)
and change with it only, as the carry does with the source (O49). -/

namespace Sys2Proof.Machine

/-! ### The registers of a commit -/

/-- A commit into a ring that is not full counts one value more, and the oldest stays where it is (R122). -/
theorem commit_registers_of_lt {r : RingFifo} (h : r.count.val < 20) (v : Sample) :
    (r.commit v).head = r.head ∧ (r.commit v).count.val = r.count.val + 1 := by
  simp [RingFifo.commit, h]

/-- A commit into a full ring moves `head` to the next place, and the count stays (R122). -/
theorem commit_registers_of_full {r : RingFifo} (h : r.count.val = 20) (v : Sample) :
    (r.commit v).head = r.slot 1 ∧ (r.commit v).count = r.count := by
  simp [RingFifo.commit, h]

/-- Settles O15: the place after the newest value is the one place written, and in a full ring it is that of the oldest. -/
theorem ringCommitIsPush : Obligations.RingCommitIsPush := by
  intro r v c
  refine ⟨window_commit r v c, fun hlt => ?_, fun hfull => ?_⟩
  · obtain ⟨hhead, hcount⟩ := commit_registers_of_lt hlt v
    refine ⟨hhead, hcount, fun j => ?_⟩
    simp only [commit_get, Fin.ext_iff, RingFifo.slot]
  · obtain ⟨hhead, hcount⟩ := commit_registers_of_full hfull v
    refine ⟨congrArg Fin.val hhead, hcount, fun j => ?_⟩
    rw [commit_get, slot_count_of_full hfull]

/-! ### Pushes in a row -/

/-- A push into a window that is not full evicts nothing (R120). -/
theorem push_of_lt {cap : Nat} {w : List U32} (h : w.length < cap) (v : U32) : push cap w v = w ++ [v] :=
  if_neg (by rw [List.length_append, List.length_singleton]; omega)

/-- A push into a full window evicts the oldest value (R120). -/
theorem push_of_full {cap : Nat} {w : List U32} (h : w.length = cap) (v : U32) : push cap w v = (w ++ [v]).drop 1 :=
  if_pos (by rw [List.length_append, List.length_singleton]; omega)

theorem lastN_of_length_le {α : Type} {n : Nat} {xs : List α} (h : xs.length ≤ n) : lastN n xs = xs := by
  rw [lastN, Nat.sub_eq_zero_of_le h, List.drop_zero]

theorem length_lastN_le {α : Type} (n : Nat) (xs : List α) : (lastN n xs).length ≤ n := by
  rw [lastN, List.length_drop]
  omega

/-- `push_eq_lastN` at any capacity. -/
theorem push_eq_lastN_of_length_le {cap : Nat} {w : List U32} (h : w.length ≤ cap) (v : U32) :
    push cap w v = lastN cap (w ++ [v]) := by
  rcases Nat.lt_or_eq_of_le h with hlt | hfull
  · rw [push_of_lt hlt, lastN_of_length_le (by rw [List.length_append, List.length_singleton]; omega)]
  · rw [push_of_full hfull, lastN, List.length_append, hfull, Nat.add_sub_cancel_left, List.length_singleton]

/-- Pushes in a row keep the last CAP of the window's values and theirs (R121). -/
theorem foldl_push_eq_lastN {cap : Nat} (vs : List U32) : ∀ {w : List U32}, w.length ≤ cap →
    vs.foldl (push cap) w = lastN cap (w ++ vs) := by
  induction vs with
  | nil => intro w h; rw [List.append_nil, lastN_of_length_le h, List.foldl_nil]
  | cons v vs ih =>
    intro w h
    rw [List.foldl_cons, push_eq_lastN_of_length_le h, ih (length_lastN_le _ _), lastN_lastN_append, List.append_assoc,
      List.singleton_append]

/-- Settles O16: an empty window is within any capacity. -/
theorem pushesKeepTheLastCap : Obligations.PushesKeepTheLastCap :=
  fun _ _ => ⟨fun vs => foldl_push_eq_lastN vs (Nat.zero_le _), fun _ v h => push_of_lt h v⟩

/-! ### The windows and the stream -/

/-- Commits in a row push their samples, in order, on every window (R122). -/
theorem window_foldl_commit (c : Channel) (vs : List Sample) : ∀ r : RingFifo,
    (vs.foldl RingFifo.commit r).window c = (vs.map (Sample.ch · c)).foldl (push Config.windowCapacity) (r.window c) := by
  induction vs with
  | nil => intro r; rfl
  | cons v vs ih => intro r; rw [List.foldl_cons, ih, window_commit, List.map_cons, List.foldl_cons]

/-- Commits in a row keep the last CAP values of every window (R121, R122). -/
theorem window_foldl_commit_lastN (r : RingFifo) (vs : List Sample) (c : Channel) :
    (vs.foldl RingFifo.commit r).window c = lastN Config.windowCapacity (r.window c ++ vs.map (Sample.ch · c)) := by
  rw [window_foldl_commit, foldl_push_eq_lastN _ ((window_length r c).trans_le (Nat.le_of_lt_succ r.count.isLt))]

/-- A channel's values are those of the samples. -/
theorem channelValues_eq_map_samplesOf (c : Channel) (es : List OutEvent) :
    channelValues c es = (samplesOf es).map (Sample.ch · c) := by
  induction es with
  | nil => rfl
  | cons e es ih => cases e <;> simp [channelValues, samplesOf, ih]

section Commits
variable {s t : State} {o : Offer}

/-- A step that is no reset commits to the ring exactly the samples it sends, in order (R161, R173). -/
theorem Effect.commits_what_it_sends (e : Effect s o t) (ho : o ≠ .rst) :
    ∃ es, t.out = s.out ++ es ∧ t.ring = (samplesOf es).foldl RingFifo.commit s.ring := by
  have nothing : ∃ es, s.out = s.out ++ es ∧ s.ring = (samplesOf es).foldl RingFifo.commit s.ring :=
    ⟨[], (List.append_nil _).symm, rfl⟩
  have samples : ∀ vs : List Sample, ∃ es, s.out ++ vs.map OutEvent.sample = s.out ++ es ∧
      vs.foldl RingFifo.commit s.ring = (samplesOf es).foldl RingFifo.commit s.ring := fun vs =>
    ⟨_, rfl, by rw [samplesOf_map]⟩
  cases e with
  | reset => exact absurd rfl ho
  | consumed => exact nothing
  | illegal => exact nothing
  | startRefused => exact nothing
  | started => exact nothing
  | cancelled => exact nothing
  | snapshot => exact nothing
  | range => exact nothing
  | status => exact nothing
  | blockRefused => exact nothing
  | blockShort => exact ⟨_, rfl, rfl⟩
  | blockFull _ _ _ _ v => exact samples [v]
  | data _ _ _ vs => exact samples vs
  | closed => exact nothing
  | errored => exact ⟨_, rfl, rfl⟩
  | endedByBeat => exact nothing
  | chunk _ vs => exact samples vs

/-- Every effect of a step keeps the windows on the stream. -/
theorem Effect.keeps_windowsFollowStream (e : Effect s o t) (h : s.WindowsFollowStream) : t.WindowsFollowStream := by
  intro c
  by_cases ho : o = .rst
  · subst ho
    cases e with | reset =>
    exact window_of_count_zero rfl c
  · obtain ⟨es, hout, hring⟩ := e.commits_what_it_sends ho
    calc t.win c
      _ = lastN Config.windowCapacity (s.win c ++ channelValues c es) := by
        rw [State.win, hring, window_foldl_commit_lastN, channelValues_eq_map_samplesOf, State.win]
      _ = lastN Config.windowCapacity (channelValues c t.out) := by
        rw [h c, lastN_lastN_append, hout, channelValues_append]

/-- A step that is no reset leaves the carry as it is, or takes a chunk or a DATA beat (R28). -/
theorem Effect.carry_kept_or_fed (e : Effect s o t) (ho : o ≠ .rst) :
    t.carry = s.carry ∨ (∃ bytes, o = .chunk bytes) ∨ ∃ b l d, o = .beat b ∧ decodeBeat b = .data l d := by
  cases o with
  | rst => exact absurd rfl ho
  | command => exact .inl (by cases e <;> rfl)
  | consumer => exact .inl (by cases e; rfl)
  | chunk => exact .inr (.inl ⟨_, rfl⟩)
  | beat =>
    cases e with
    | data _ _ _ _ _ h => exact .inr (.inr ⟨_, _, _, rfl, h⟩)
    | closed => exact .inl rfl
    | errored => exact .inl rfl
    | endedByBeat => exact .inl rfl

end Commits

/-- Settles O55: the samples a step sends are those it pushes, and a reset empties both the windows and the stream. -/
theorem stepKeepsWindowsOnStream : Obligations.StepKeepsWindowsOnStream := by
  intro s t h hstep
  obtain ⟨o, rest, -, e⟩ := step_effect hstep
  exact e.keeps_windowsFollowStream h

/-- Settles O49: with no sample sent nothing is committed, and only a chunk or a DATA beat is fed. -/
theorem onlyIngestionWritesData : Obligations.OnlyIngestionWritesData := by
  intro s t o h
  obtain ⟨e, ho⟩ := h.effect
  refine ⟨fun hsame => ?_, (e.carry_kept_or_fed ho).resolve_left⟩
  obtain ⟨es, hout, hring⟩ := e.commits_what_it_sends ho
  have hnone : samplesOf es = [] := by rwa [hout, samplesOf_append, List.append_right_eq_self] at hsame
  rw [hring, hnone, List.foldl_nil]

end Sys2Proof.Machine
end

section
/-! PROOFS. The display range by the extreme values of the window: no order of the values matters (O22), the bounds are in order
and on their scale (O21), and RANGE returns them (O20). -/

namespace Sys2Proof.Machine

/-! ### The extreme values of a window -/

/-- `mn` and `mx` are the least and the greatest value of the window, whichever of its values they are (R142). -/
def Extremes (w : List U32) (mn mx : U32) : Prop :=
  mn ∈ w ∧ mx ∈ w ∧ ∀ v ∈ w, mn.toNat ≤ v.toNat ∧ v.toNat ≤ mx.toNat

theorem exists_extremes {w : List U32} (hw : w ≠ []) : ∃ mn mx, Extremes w mn mx := by
  obtain ⟨x, xs, rfl⟩ := List.exists_cons_of_ne_nil hw
  obtain ⟨⟨mn, hmn, hleast⟩, hle⟩ := leastOf_spec x xs
  obtain ⟨⟨mx, hmx, hgreatest⟩, hge⟩ := greatestOf_spec x xs
  rw [hleast] at hle
  rw [hgreatest] at hge
  exact ⟨mn, mx, hmn, hmx, fun v hv => ⟨Int.ofNat_le.1 (hle v hv), Int.ofNat_le.1 (hge v hv)⟩⟩

theorem Extremes.perm {w w' : List U32} {mn mx : U32} (h : Extremes w mn mx) (hperm : w.Perm w') : Extremes w' mn mx := by
  obtain ⟨hmn, hmx, hall⟩ := h
  exact ⟨hperm.mem_iff.1 hmn, hperm.mem_iff.1 hmx, fun v hv => hall v (hperm.mem_iff.2 hv)⟩

theorem Extremes.le {w : List U32} {mn mx : U32} (h : Extremes w mn mx) : mn.toNat ≤ mx.toNat := by
  obtain ⟨hmn, -, hall⟩ := h
  exact (hall mn hmn).2

/-- The reducer ends at the extreme values (R142). -/
theorem Extremes.reduced {x : U32} {xs : List U32} {mn mx : U32} (h : Extremes (x :: xs) mn mx) :
    leastOf x xs = mn.toNat ∧ greatestOf x xs = mx.toNat := by
  obtain ⟨hmn, hmx, hall⟩ := h
  obtain ⟨⟨a, ha, hleast⟩, hle⟩ := leastOf_spec x xs
  obtain ⟨⟨b, hb, hgreatest⟩, hge⟩ := greatestOf_spec x xs
  exact ⟨le_antisymm (hle mn hmn) (hleast ▸ Int.ofNat_le.2 (hall a ha).1),
    le_antisymm (hgreatest ▸ Int.ofNat_le.2 (hall b hb).2) (hge mx hmx)⟩

/-! ### The range -/

/-- The range of a window with autoscale is a function of its extreme values (R141). -/
theorem rangeOf_of_extremes (p : Params) {w : List U32} {mn mx : U32} (h : Extremes w mn mx) :
    rangeOf p w true = (clamp (p.padDen * mn.toNat - padQ p mn.toNat mx.toNat) 0 (Params.topQ p),
      clamp (p.padDen * mx.toNat + padQ p mn.toNat mx.toNat) 0 (Params.topQ p)) := by
  obtain ⟨x, xs, rfl⟩ := List.exists_cons_of_ne_nil (List.ne_nil_of_mem h.1)
  obtain ⟨hleast, hgreatest⟩ := h.reduced
  rw [rangeOf, hleast, hgreatest]

/-- Settles O22: windows that are permutations of each other have the same extreme values. -/
theorem rangeOrderIndependent : Obligations.RangeOrderIndependent := by
  intro p w w' en hperm
  cases en with
  | false => rfl
  | true =>
    by_cases hw : w = []
    · subst hw
      rw [hperm.nil_eq]
    · obtain ⟨mn, mx, h⟩ := exists_extremes hw
      rw [rangeOf_of_extremes p h, rangeOf_of_extremes p (h.perm hperm)]

/-- Without autoscale, or with an empty window, the range is the whole scale (R141). -/
theorem rangeOf_whole {w : List U32} {en : Bool} (h : en = false ∨ w = []) :
    rangeOf Config.params w en = (0, 85899345920) := by
  rw [← topQ_params]
  rcases h with rfl | rfl
  · rfl
  · cases en <;> rfl

/-- The range of a window with autoscale at the defaults (R141, R143). -/
theorem rangeOf_params_of_extremes {w : List U32} {mn mx : U32} (h : Extremes w mn mx) {pad : Int}
    (hpad : pad = if mx = mn then 20 else (mx.toNat : Int) - mn.toNat) :
    rangeOf Config.params w true = (max 0 (min (20 * (mn.toNat : Int) - pad) 85899345920),
      max 0 (min (20 * (mx.toNat : Int) + pad) 85899345920)) := by
  have heq : (mx.toNat : Int) = mn.toNat ↔ mx = mn := Int.natCast_inj.trans BitVec.toNat_inj
  rw [rangeOf_of_extremes Config.params h, padQ_params, topQ_params]
  simp only [heq, ← hpad]
  rfl

/-- The pad at the defaults is positive, also where the window is flat (R143). -/
theorem Extremes.pad_pos {w : List U32} {mn mx : U32} (h : Extremes w mn mx) :
    0 < (if mx = mn then 20 else (mx.toNat : Int) - mn.toNat) := by
  have hle := h.le
  split
  · decide
  next hne =>
    have := BitVec.toNat_inj.not.2 hne
    omega

/-- Settles O21: the pad is positive, and the values lie below the upper end of the scale, so no clamp closes the range. -/
theorem rangeBoundsOrdered : Obligations.RangeBoundsOrdered := by
  intro w en
  by_cases hwhole : en = false ∨ w = []
  · rw [rangeOf_whole hwhole]
    decide
  · obtain ⟨hen, hw⟩ := not_or.1 hwhole
    obtain rfl := Bool.eq_true_of_not_eq_false hen
    obtain ⟨mn, mx, h⟩ := exists_extremes hw
    have hpos := h.pad_pos
    have hle := h.le
    have hmx := mx.isLt
    rw [rangeOf_params_of_extremes h rfl]
    generalize (if mx = mn then 20 else (mx.toNat : Int) - mn.toNat) = pad at hpos ⊢
    omega

/-! ### The query -/

/-- Neither bound of a range loses bits in its word (R88, R145). -/
theorem boundWord_rangeOf_toNat (w : List U32) (en : Bool) :
    ((boundWord (rangeOf Config.params w en).1).toNat : Int) = (rangeOf Config.params w en).1 ∧
    ((boundWord (rangeOf Config.params w en).2).toNat : Int) = (rangeOf Config.params w en).2 := by
  obtain ⟨hlow, hlt, hhigh⟩ := rangeBoundsOrdered w en
  exact ⟨boundWord_toNat _ hlow (hlt.le.trans hhigh), boundWord_toNat _ (hlow.trans hlt.le) hhigh⟩

/-- Settles O20: the beats are the bounds of the range, which the extreme values of the window give. -/
theorem rangeReturnsTheBounds : Obligations.RangeReturnsTheBounds := by
  constructor
  · intro cmd p ch en
    have hword : (cmdWord 4 (channelBits ch) (bit en) 0).toNat = 4 + 16 * ch.val + 64 * en.toNat := by
      rw [cmdWord_toNat]; revert ch en; decide
    rw [← hword]
    exact decodeCommand_iff_toNat rfl (decode_rangeWord ch en)
  · intro ch en s
    obtain ⟨hlow, hhigh⟩ := boundWord_rangeOf_toNat (s.win ch) en
    refine ⟨_, _, rfl, fun hwhole => ?_, fun mn mx hen hmn hmx hall pad hpad => ?_⟩
    · rw [rangeOf_whole hwhole] at hlow hhigh ⊢
      exact ⟨Int.ofNat_inj.1 hlow, Int.ofNat_inj.1 hhigh⟩
    · subst hen
      rw [hlow, hhigh, rangeOf_params_of_extremes ⟨hmn, hmx, hall⟩ hpad]
      exact ⟨rfl, rfl⟩

end Sys2Proof.Machine
end

section
/-! PROOFS. The host commands that act on the stream: START (O23), CANCEL (O24), and BLOCK, accepted (O27, O28), refused or held
(O29). -/

namespace Sys2Proof.Machine

/-! ### START and CANCEL -/

/-- Loop top from READING cancels if the token is set (R162). -/
theorem loopTop_of_reading {s : State} (h : s.st = .reading) :
    loopTop s = { s with st := if s.cancelReq then .cancelled else .reading } := by
  rw [loopTop_eq]
  simp [h]

/-- Settles O23: in OPEN the stream goes to READING and on to loop top; the check before it refuses elsewhere. -/
theorem startOpensOrIsRefused : Obligations.StartOpensOrIsRefused := by
  refine ⟨fun cmd p => decodeCommand_iff_toNat (w := cmdWord 1 0 0 0) rfl decode_startWord, fun s => ⟨?_, ?_⟩⟩
  · intro hopen
    rw [exec, execStart, if_neg (not_not.2 hopen), loopTop_of_reading rfl]
    rfl
  · exact fun hopen => if_pos hopen

/-- Settles O24: only READING between chunks leaves its state. -/
theorem cancelSetsTheToken : Obligations.CancelSetsTheToken := by
  refine ⟨fun cmd p => decodeCommand_iff_toNat (w := cmdWord 2 0 0 0) rfl decode_cancelWord, fun s => ⟨?_, ?_⟩⟩
  · exact fun hr hi => execCancel_of_between_chunks hr hi
  · intro h
    have hwaits : ¬ (s.st = .reading ∧ s.inChunk = false) := by
      rwa [not_and_or, Bool.not_eq_false]
    exact if_neg hwaits

/-! ### BLOCK -/

/-- Settles O29: the checks of R172 in their order, length, chunk in progress, state. -/
theorem blockRefusedOrHeld : Obligations.BlockRefusedOrHeld := by
  intro len p s
  refine ⟨fun hlong => if_pos hlong, fun hlen hi hr => ?_, fun hlen hi => ?_⟩
  · rw [exec, execBlock, if_neg (Nat.not_lt.2 hlen), if_neg (Bool.eq_false_iff.1 hi), if_pos hr]
    rfl
  · rw [exec, execBlock, if_neg (Nat.not_lt.2 hlen), if_pos hi]

/-- A legal BLOCK in READING between chunks commits its bytes as one block, is answered OK and runs loop top (R172). -/
theorem execBlock_of_between_chunks {len : BitVec 5} {s : State} (hlen : len.toNat ≤ 16) (hr : s.st = .reading)
    (hi : s.inChunk = false) (p : BitVec 128) :
    execBlock len p s = .next (respond .ok [0] { processBlock s (blockBytes len p) with
      st := if s.cancelReq then .cancelled else .reading }) := by
  have hst : (processBlock s (blockBytes len p)).st = .reading := by rw [processBlock_eq, hr]
  have hc : (processBlock s (blockBytes len p)).cancelReq = s.cancelReq := by rw [processBlock_eq]
  rw [execBlock, if_neg (Nat.not_lt.2 hlen), if_neg (Bool.eq_false_iff.1 hi), if_neg (not_not.2 hr),
    ← hc, loopTop_of_reading hst]

/-- Settles O28: fewer than 16 bytes are a short block, whose commit only reports their number. -/
theorem shortBlockIsReported : Obligations.ShortBlockIsReported := by
  intro len p s hshort hr hi
  have hlen := blockBytes_length len p
  rw [exec, execBlock_of_between_chunks hshort.le hr hi, processBlock_of_short (hlen.trans_lt hshort), hlen]
  rfl

/-- A word decodes to BLOCK by its length field, with the payload sampled in the same transfer (R73, R74 (d), R75). -/
theorem decodeCommand_block_iff {cmd : BitVec 32} {p q : BitVec 128} {len : BitVec 5} :
    decodeCommand cmd p = .ok (.block len q) ↔ cmd.toNat = 6 + 128 * len.toNat ∧ len.toNat ≤ 16 ∧ q = p := by
  rw [← blockWord_toNat, BitVec.toNat_inj]
  constructor
  · intro h
    obtain ⟨q', hq⟩ := encode_of_decodeCommand h
    exact ⟨(PortWord.control.inj hq).1.symm, decode_block_len h, decode_block_payload h⟩
  · rintro ⟨rfl, hlen, rfl⟩
    exact decode_blockWord hlen _

/-- Every payload is the data of one SAMPLE: its four words are the channels (R52, R81). -/
theorem exists_sample_data (p : BitVec 128) : ∃ v, (OutEvent.sample v).data = p := by
  refine ⟨⟨p.extractLsb' 0 32, p.extractLsb' 32 32, p.extractLsb' 64 32, p.extractLsb' 96 32⟩, ?_⟩
  apply BitVec.eq_of_toNat_eq
  have := p.isLt
  simp only [sample_data_toNat, BitVec.extractLsb'_toNat, Nat.shiftRight_eq_div_pow]
  omega

/-- The frame of a sample, packed, is the data of its SAMPLE event (R52, R95). -/
theorem packBytes_sampleBytes (v : Sample) : packBytes v.bytes = (OutEvent.sample v).data :=
  BitVec.eq_of_toNat_eq ((packBytes_sampleBytes_toNat v).trans (sample_data_toNat v).symm)

/-- The bytes of a full BLOCK decode to the sample whose data is the payload (R52, R100). -/
theorem decodeFrame_blockBytes_data (v : Sample) :
    decodeFrame (blockBytes 16 (OutEvent.sample v).data) = .ok v := by
  have hfull : v.bytes.length ≤ 16 := Nat.le_refl 16
  have hlen : (16 : BitVec 5).toNat = v.bytes.length := rfl
  rw [← packBytes_sampleBytes, blockBytes_packBytes hfull hlen, decodeFrame_bytes]

/-- Settles O27: the payload is some sample's data, and its bytes decode to that sample. -/
theorem fullBlockCommitsOneFrame : Obligations.FullBlockCommitsOneFrame := by
  refine ⟨fun cmd p q len => decodeCommand_block_iff, fun p s hr hi => ?_⟩
  obtain ⟨v, rfl⟩ := exists_sample_data p
  have hexec := execBlock_of_between_chunks (len := 16) (Nat.le_refl 16) hr hi (OutEvent.sample v).data
  rw [processBlock, decodeFrame_blockBytes_data] at hexec
  exact ⟨v, _, hexec, rfl, rfl, fun c => window_commit_lastN s.ring v c⟩

end Sys2Proof.Machine
end

section
/-! PROOFS. The source events: EOS (O33), ERR and the reserved kind (O34), the state that enables them (O35), and the
transaction-level chunk (O36). -/

namespace Sys2Proof.Machine

/-! ### Beats that end the stream -/

/-- A beat by its kind, with the instruction it is (R76, R77). -/
theorem decodeBeat_cases (b : BitVec 11) :
    (b.toNat / 512 = 0 ∧ decodeBeat b = .data (b.extractLsb' 8 1 == 1) (b.extractLsb' 0 8)) ∨
    (b.toNat / 512 = 1 ∧ decodeBeat b = .eos) ∨
    (b.toNat / 512 = 2 ∧ decodeBeat b = .err (BitVec.ofNat 8 (b.toNat % 256))) ∨
    (b.toNat / 512 = 3 ∧ decodeBeat b = .srcRsvd (BitVec.ofNat 8 (b.toNat % 256))) := by
  have hkind : b.toNat / 512 = 0 ∨ b.toNat / 512 = 1 ∨ b.toNat / 512 = 2 ∨ b.toNat / 512 = 3 := by
    have := b.isLt
    omega
  rcases hkind with h | h | h | h
  · exact .inl ⟨h, decodeBeat_of_kind_zero h⟩
  · exact .inr (.inl ⟨h, decodeBeat_of_kind_one h⟩)
  · exact .inr (.inr (.inl ⟨h, decodeBeat_of_kind_two h⟩))
  · exact .inr (.inr (.inr ⟨h, decodeBeat_of_kind_three h⟩))

/-- A byte as the low byte of a number. -/
theorem ofNat_mod_eq_iff (n : Nat) (cause : Byte) : BitVec.ofNat 8 (n % 256) = cause ↔ cause.toNat = n % 256 := by
  rw [← BitVec.toNat_inj, BitVec.toNat_ofNat, Nat.mod_mod, eq_comm]

/-- A beat is EOS by its kind alone (R77). -/
theorem decodeBeat_eq_eos_iff (b : BitVec 11) : decodeBeat b = .eos ↔ b.toNat / 512 = 1 := by
  rcases decodeBeat_cases b with ⟨hk, hd⟩ | ⟨hk, hd⟩ | ⟨hk, hd⟩ | ⟨hk, hd⟩ <;> simp [hk, hd]

/-- A beat is ERR by its kind, with its byte as the cause (R77). -/
theorem decodeBeat_eq_err_iff (b : BitVec 11) (cause : Byte) :
    decodeBeat b = .err cause ↔ b.toNat / 512 = 2 ∧ cause.toNat = b.toNat % 256 := by
  rcases decodeBeat_cases b with ⟨hk, hd⟩ | ⟨hk, hd⟩ | ⟨hk, hd⟩ | ⟨hk, hd⟩ <;> simp [hk, hd, ofNat_mod_eq_iff]

/-- A beat is of the reserved kind by its kind, with its byte as the cause (R77, R79). -/
theorem decodeBeat_eq_srcRsvd_iff (b : BitVec 11) (cause : Byte) :
    decodeBeat b = .srcRsvd cause ↔ b.toNat / 512 = 3 ∧ cause.toNat = b.toNat % 256 := by
  rcases decodeBeat_cases b with ⟨hk, hd⟩ | ⟨hk, hd⟩ | ⟨hk, hd⟩ | ⟨hk, hd⟩ <;> simp [hk, hd, ofNat_mod_eq_iff]

/-- Settles O33: EOS is a beat that ends the stream, in CLOSED. -/
theorem eosClosesTheStream : Obligations.EosClosesTheStream := by
  refine ⟨decodeBeat_eq_eos_iff, fun s => ⟨fun hr => ?_, fun hr => ?_⟩⟩
  · exact (endStream_eq (fun u => { u with st := .closed }) s hr).1
  · exact (endStream_eq (fun u => { u with st := .closed }) s hr).2

/-- ERR and the reserved kind have one meaning, the fatal error path (R170). -/
theorem exec_sourceError {cause : Byte} {i : Instr} (hi : i = .err cause ∨ i = .srcRsvd cause) (s : State) :
    exec i s = endStream (enterErrored cause) s := by
  rcases hi with rfl | rfl <;> rfl

/-- Settles O34: either beat ends the stream on the fatal error path. -/
theorem sourceErrorIsFatal : Obligations.SourceErrorIsFatal := by
  refine ⟨fun b cause => ⟨decodeBeat_eq_err_iff b cause, decodeBeat_eq_srcRsvd_iff b cause⟩, fun cause i s hi => ?_⟩
  rw [exec_sourceError hi]
  refine ⟨fun hr hc => ?_, fun hr => (endStream_eq (enterErrored cause) s hr).2⟩
  exact ⟨.error .sourceError true cause, rfl, error_data_toNat _ _ _, (endStream_eq (enterErrored cause) s hr).1 hc⟩

/-! ### Where a source event has a step -/

theorem srcEnabled_of_not_reading {s : State} (h : s.st ≠ .reading) : s.srcEnabled = false :=
  Bool.eq_false_iff.2 fun he => h ((srcEnabled_iff s).1 he).1

/-- A step takes a source event only where the source port pulls (R91, R163). -/
theorem pulling_of_nextOffer {s : State} {o : Offer} {rest : List Offer} (h : s.nextOffer = some (o, rest))
    (ho : o.onSource = true) : s.Pulling :=
  (srcEnabled_iff s).1 ((srcReady_iff s).1 (srcReady_of_nextOffer h ho)).1

/-- Settles O35: each source event's meaning, and the port's readiness, begin with the check of `srcEnabled`. -/
theorem sourceEventsOnlyInReading : Obligations.SourceEventsOnlyInReading := by
  refine ⟨fun i s hs hi => ?_, fun bytes s hs => ?_, fun s hs => ?_, fun s o rest => pulling_of_nextOffer⟩
  all_goals have hdisabled := srcEnabled_of_not_reading hs
  · have hended : ∀ f, endStream f s = .fault .sourceNotEnabled := fun f => if_neg (Bool.eq_false_iff.1 hdisabled)
    rcases hi with ⟨l, b, rfl⟩ | rfl | ⟨c, rfl⟩ | ⟨c, rfl⟩
    · exact if_neg (Bool.eq_false_iff.1 hdisabled)
    · exact hended fun u => { u with st := .closed }
    · exact hended (enterErrored c)
    · exact hended (enterErrored c)
  · simp [execChunk, hdisabled]
  · simp [State.srcReady, hdisabled]

/-! ### The transaction-level chunk -/

/-- What Feed leaves over is its buffer without the frames' bytes (R110, R111). -/
theorem feed_rest_eq_drop (carry chunk : List Byte) :
    (feed carry chunk).2 = (carry ++ chunk).drop (16 * (feed carry chunk).1.length) := by
  have hsuffix : (feed carry chunk).2 <:+ carry ++ chunk := ⟨_, feed_conserves carry chunk⟩
  have hcut : (carry ++ chunk).length - (feed carry chunk).2.length = 16 * (feed carry chunk).1.length := by
    rw [List.length_append, feed_rest_length_eq_mod, feed_frames_length]
    omega
  rw [← hcut]
  exact List.suffix_iff_eq_drop.1 hsuffix

/-- The value of a channel group is in the first 16 bytes (R101). -/
theorem groupValue_take (blk : List Byte) (c : Channel) : groupValue (blk.take 16) c = groupValue blk c := by
  have hbyte : ∀ i < 16, (blk.take 16).getD i 0 = blk.getD i 0 := fun i hi => by
    rw [List.getD_eq_getElem?_getD, List.getElem?_take_of_lt hi, ← List.getD_eq_getElem?_getD]
  have hc := c.isLt
  simp only [Config.channelCount] at hc
  rw [groupValue, hbyte _ (by omega), hbyte _ (by omega), hbyte _ (by omega), hbyte _ (by omega), groupValue]

/-- Frame `k` of a Feed is its buffer's `k`-th group of 16 bytes, full (R110). -/
theorem feed_frame_eq {carry chunk f : List Byte} {k : Nat} (h : (feed carry chunk).1[k]? = some f) :
    f.length = 16 ∧ f = ((carry ++ chunk).drop (16 * k)).take 16 := by
  refine ⟨feed_frame_length carry chunk f (List.mem_of_getElem? h), ?_⟩
  rw [feed_nil_append, feed_nil_frames, List.getElem?_map, Option.map_eq_some_iff] at h
  obtain ⟨i, hi, rfl⟩ := h
  obtain ⟨-, rfl⟩ : k < (carry ++ chunk).length / 16 ∧ k = i := by simpa [List.getElem?_eq_some_iff] using hi
  rfl

/-- The samples that the frames of a Feed decode to have the frames' little-endian values (R101, R167). -/
theorem sample_values_of_feed {carry chunk : List Byte} {vs : List Sample}
    (h : (feed carry chunk).1.map decodeFrame = vs.map Except.ok) {k : Nat} {v : Sample} (hv : vs[k]? = some v)
    (c : Channel) : (v.ch c).toNat = groupValue ((carry ++ chunk).drop (16 * k)) c := by
  have hk : ((feed carry chunk).1.map decodeFrame)[k]? = some (.ok v) := by rw [h, List.getElem?_map, hv, Option.map_some]
  rw [List.getElem?_map, Option.map_eq_some_iff] at hk
  obtain ⟨f, hf, hdecode⟩ := hk
  obtain ⟨hlen, hgroup⟩ := feed_frame_eq hf
  obtain ⟨v', hdecode', hvalue⟩ := decodeFrame_of_full hlen
  obtain rfl : v' = v := Except.ok.inj (hdecode'.symm.trans hdecode)
  rw [hvalue, hgroup, groupValue_take]

/-- Settles O36: in an idle state the event is `feedChunk`, which commits one sample for each frame of the Feed. -/
theorem chunkCommitsItsFrames : Obligations.ChunkCommitsItsFrames := by
  intro bytes s hidle
  obtain ⟨vs, hring, hout, hdecode⟩ := feedChunk_samples bytes s
  have hframes : (feed s.carry bytes).1.length = vs.length := by simpa using congrArg List.length hdecode
  refine ⟨_, vs, execChunk_of_idle hidle bytes, ?_, ?_, fun k v hv => sample_values_of_feed hdecode hv, fun c => ?_⟩
  · rw [← hframes, ← feed_rest_eq_drop, ← hout]
    exact feedChunk_eq s bytes
  · rw [← hframes, feed_frames_length]
  · rw [State.win, hring]
    exact window_foldl_commit_lastN s.ring vs c

end Sys2Proof.Machine
end

section
/-! PROOFS. The terminal states: what a step leaves as it is and what it answers (O50), and runs after a cancellation (O59). -/

namespace Sys2Proof.Machine

/-! ### One step from a terminal state -/

/-- A terminal state is neither OPEN nor READING (R21). -/
theorem ne_opened_and_ne_reading_of_terminal {st : StreamState} (h : st.terminal = true) : st ≠ .opened ∧ st ≠ .reading := by
  cases st <;> simp_all [StreamState.terminal]

/-- A step from a terminal state that is no reset keeps the state and the data (R171). -/
theorem Effect.keeps_terminal {s t : State} {o : Offer} (e : Effect s o t) (ho : o ≠ .rst)
    (hterm : s.st.terminal = true) : t.st = s.st ∧ t.ring = s.ring ∧ t.carry = s.carry ∧ t.out = s.out := by
  obtain ⟨hopen, hread⟩ := ne_opened_and_ne_reading_of_terminal hterm
  have kept : s.st = s.st ∧ s.ring = s.ring ∧ s.carry = s.carry ∧ s.out = s.out := ⟨rfl, rfl, rfl, rfl⟩
  cases e with
  | reset => exact absurd rfl ho
  | consumed => exact kept
  | illegal => exact kept
  | startRefused => exact kept
  | started _ _ _ _ hs => exact absurd hs hopen
  | cancelled => exact ⟨if_neg fun h => hread h.1, rfl, rfl, rfl⟩
  | snapshot => exact kept
  | range => exact kept
  | status => exact kept
  | blockRefused => exact kept
  | blockShort _ _ _ _ _ _ _ _ _ hs => exact absurd hs hread
  | blockFull _ _ _ _ _ _ _ _ _ hs => exact absurd hs hread
  | data _ _ _ _ _ _ hp => exact absurd hp.1 hread
  | closed _ _ _ hs => exact absurd hs hread
  | errored _ _ _ _ hs => exact absurd hs hread
  | endedByBeat _ _ hs => exact absurd hs hread
  | chunk _ _ _ hi => exact absurd hi.1 hread

/-- A step that takes a legal command runs it with the offer removed (R11, R89). -/
theorem StepOf.exec_command {s t : State} {cmd : BitVec 32} {p : BitVec 128} {i : Instr}
    (h : StepOf s (.command cmd p) t) (hi : decodeCommand cmd p = .ok i) :
    ∃ rest, s.nextOffer = some (.command cmd p, rest) ∧ exec i { s with offers := rest } = .next t := by
  obtain ⟨rest, ho, -, hstep⟩ := h
  exact ⟨rest, ho, (stepRunsTheDecodedInstr.1 s cmd p rest i ho hi).symm.trans hstep⟩

/-- Settles O50: no effect of a terminal state writes the data, and each command's meaning there is the one its own statement
gives. -/
theorem terminalStatesKeepTheirData : Obligations.TerminalStatesKeepTheirData := by
  intro s t o hterm hstep
  obtain ⟨hopen, hread⟩ := ne_opened_and_ne_reading_of_terminal hterm
  refine ⟨⟨?_, ?_⟩, ?_⟩
  · obtain ⟨rest, ho, -, -⟩ := hstep
    exact Bool.eq_false_iff.2 fun hsrc => hread (pulling_of_nextOffer ho hsrc).1
  · obtain ⟨e, ho⟩ := hstep.effect
    exact e.keeps_terminal ho hterm
  · rintro cmd p i rfl hi
    obtain ⟨rest, ho, hexec⟩ := hstep.exec_command hi
    refine ⟨?_, ?_, ?_⟩
    · rintro (rfl | ⟨len, q, rfl⟩)
      · cases hexec.symm.trans ((startOpensOrIsRefused.2 _).2 hopen)
        rfl
      · have hbetween : s.inChunk = false := (block_of_nextOffer ho hi).1
        cases hexec.symm.trans ((blockRefusedOrHeld len q _).2.1 (decode_block_len hi) hbetween hread)
        rfl
    · rintro rfl
      cases hexec.symm.trans ((cancelSetsTheToken.2 _).2 (.inl hread))
      rfl
    · rintro (⟨ch, rfl⟩ | ⟨ch, en, rfl⟩ | rfl) <;> cases hexec <;> exact ⟨_, rfl, rfl⟩

/-! ### Runs -/

/-- With no reset among the offers, a step takes none and leaves none (R90). -/
theorem step_of_no_reset {s t : State} (h : ∀ o ∈ s.offers, o ≠ .rst) (hstep : step s = .next t) :
    (∃ o, Effect s o t ∧ o ≠ .rst) ∧ ∀ o ∈ t.offers, o ≠ .rst := by
  obtain ⟨o, rest, ho, e⟩ := step_effect hstep
  obtain ⟨-, pre, post, hoffers, hrest⟩ := nextOffer_some ho
  refine ⟨⟨o, e, h o (by simp [hoffers])⟩, ?_⟩
  rcases step_offers ho hstep with hleft | hleft
  · rw [hleft, hrest]
    intro o' ho'
    refine h o' ?_
    rw [hoffers]
    exact ((List.sublist_cons_self o post).append_left pre).mem ho'
  · rwa [hleft]

/-- A run without a reset from a terminal state keeps the state and the data (R171). -/
theorem run_keeps_terminal (k : Nat) : ∀ {s u : State}, Host.Core.run Sys2Proof.core k s = .next u →
    s.st.terminal = true → (∀ o ∈ s.offers, o ≠ .rst) →
    u.st = s.st ∧ u.ring = s.ring ∧ u.carry = s.carry ∧ u.out = s.out := by
  induction k with
  | zero =>
    intro s u hrun _ _
    cases hrun
    exact ⟨rfl, rfl, rfl, rfl⟩
  | succ k ih =>
    intro s u hrun hterm hoffers
    obtain ⟨t, hstep, hrun⟩ := run_succ hrun
    obtain ⟨⟨o, e, ho⟩, hoffers⟩ := step_of_no_reset hoffers hstep
    obtain ⟨hst, hring, hcarry, hout⟩ := e.keeps_terminal ho hterm
    obtain ⟨hst', hring', hcarry', hout'⟩ := ih hrun (hst ▸ hterm) hoffers
    exact ⟨hst'.trans hst, hring'.trans hring, hcarry'.trans hcarry, hout'.trans hout⟩

/-- Settles O59: the CANCEL leaves the terminal state CANCELLED, which a run keeps with its data. -/
theorem nothingFollowsACancellation : Obligations.NothingFollowsACancellation := by
  intro s t u k hr hi hoffers hcancel hrun
  cases hcancel.symm.trans ((cancelSetsTheToken.2 s).1 hr hi)
  obtain ⟨hst, hring, hcarry, hout⟩ := run_keeps_terminal k hrun rfl hoffers
  exact ⟨hst, hout, hring, hcarry⟩

end Sys2Proof.Machine
end

section
/-! PROOFS. The exceptions of the control port: illegal command words (O40), and legal commands that the state forbids (O41). -/

namespace Sys2Proof.Machine

/-! ### Illegal command words -/

/-- The control port is ready for an illegal word in every state: a word that it would hold is a BLOCK whatever the payload
(R74, R93). -/
theorem ctlReady_of_illegal {cmd : BitVec 32} {p : BitVec 128} {e : IllegalCmd} (h : decodeCommand cmd p = .error e)
    (s : State) : s.ctlReady cmd = true := by
  unfold State.ctlReady
  split
  next len q hblock =>
    obtain ⟨hword, hlen, -⟩ := decodeCommand_block_iff.1 hblock
    have hlegal : decodeCommand cmd p = .ok (.block len p) := decodeCommand_block_iff.2 ⟨hword, hlen, rfl⟩
    nomatch h.symm.trans hlegal
  next => rfl

/-- Settles O40: the word is refused before anything else is looked at, and no chunk in progress or full output holds it. -/
theorem illegalCommandIsRefused : Obligations.IllegalCommandIsRefused := by
  constructor
  · intro s cmd p rest e ho he
    rw [step_of_nextOffer ho, takeOffer, takeCommand, he]
    rfl
  · intro s cmd p os e ho he
    exact nextOffer_head ho (ctlReady_of_illegal he s)

/-! ### Commands that the state forbids -/

/-- The state forbids a legal command: START outside OPEN, BLOCK outside READING (R205). -/
def State.Forbids (s : State) (i : Instr) : Prop :=
  (i = .start ∧ s.st ≠ .opened) ∨ ((∃ len p, i = .block len p) ∧ s.st ≠ .reading)

theorem forbids_start_iff (s : State) : s.Forbids .start ↔ s.st ≠ .opened := by simp [State.Forbids]

theorem forbids_block_iff (s : State) (len : BitVec 5) (p : BitVec 128) :
    s.Forbids (.block len p) ↔ s.st ≠ .reading := by simp [State.Forbids]

/-- No state forbids another command. -/
theorem not_forbids (s : State) (i : Instr) (hstart : i ≠ .start) (hblock : ∀ len p, i ≠ .block len p) :
    ¬ s.Forbids i := by
  rintro (⟨h, -⟩ | ⟨⟨len, p, h⟩, -⟩)
  · exact hstart h
  · exact hblock len p h

/-- A legal command that is taken is refused with ILLEGAL_STATE if the state forbids it, and is answered OK if not (R205). -/
theorem Effect.refused_or_ok {s t : State} {cmd : BitVec 32} {p : BitVec 128} {i : Instr}
    (e : Effect s (.command cmd p) t) (hi : decodeCommand cmd p = .ok i) :
    (s.Forbids i ∧ t = { s with offers := t.offers, progErr := true, rsp := s.rsp ++ [⟨.illegalState, [0]⟩] }) ∨
    (¬ s.Forbids i ∧ ∃ r, t.rsp = s.rsp ++ [r] ∧ r.status = .ok) := by
  have hdecoded : ∀ {j}, decodeCommand cmd p = .ok j → i = j := fun hj => Except.ok.inj (hi.symm.trans hj)
  cases e with
  | illegal _ _ _ _ h => nomatch hi.symm.trans h
  | startRefused _ _ _ h hs =>
    obtain rfl := hdecoded h
    exact .inl ⟨(forbids_start_iff s).2 hs, rfl⟩
  | started _ _ _ h hs =>
    obtain rfl := hdecoded h
    exact .inr ⟨mt (forbids_start_iff s).1 (not_not.2 hs), _, rfl, rfl⟩
  | cancelled _ _ _ h =>
    obtain rfl := hdecoded h
    exact .inr ⟨not_forbids s .cancel nofun nofun, _, rfl, rfl⟩
  | snapshot _ _ ch _ _ h =>
    obtain rfl := hdecoded h
    exact .inr ⟨not_forbids s (.snapshot ch) nofun nofun, _, rfl, rfl⟩
  | range _ _ ch en _ _ h =>
    obtain rfl := hdecoded h
    exact .inr ⟨not_forbids s (.range ch en) nofun nofun, _, rfl, rfl⟩
  | status _ _ _ _ h =>
    obtain rfl := hdecoded h
    exact .inr ⟨not_forbids s .status nofun nofun, _, rfl, rfl⟩
  | blockRefused _ _ len q _ h _ _ hs =>
    obtain rfl := hdecoded h
    exact .inl ⟨(forbids_block_iff s len q).2 hs, rfl⟩
  | blockShort _ _ len q _ _ h _ _ hs =>
    obtain rfl := hdecoded h
    exact .inr ⟨mt (forbids_block_iff s len q).1 (not_not.2 hs), _, rfl, rfl⟩
  | blockFull _ _ len q _ _ h _ _ hs =>
    obtain rfl := hdecoded h
    exact .inr ⟨mt (forbids_block_iff s len q).1 (not_not.2 hs), _, rfl, rfl⟩

/-- Settles O41: the one response of a taken command is the refusal where the state forbids the command, and OK elsewhere. -/
theorem illegalStateRefusals : Obligations.IllegalStateRefusals := by
  intro s t cmd p i hi hstep
  rcases hstep.effect.1.refused_or_ok hi with ⟨hforbids, ht⟩ | ⟨hallowed, r, hr, hok⟩
  · have hrsp : t.rsp = s.rsp ++ [⟨.illegalState, [0]⟩] := congrArg State.rsp ht
    exact ⟨iff_of_true ⟨_, hrsp, rfl⟩ hforbids, fun _ => ht⟩
  · have hnone : ¬ ∃ r', t.rsp = s.rsp ++ [r'] ∧ r'.status = .illegalState := by
      rintro ⟨r', hr', hrefused⟩
      obtain rfl : r = r' := by simpa using hr.symm.trans hr'
      nomatch hok.symm.trans hrefused
    exact ⟨iff_of_false hnone hallowed, fun h => absurd h hnone⟩

end Sys2Proof.Machine
end

section
/-! PROOFS. Progress: an offer that is taken has a step (O42); and what only a reset clears (O45). -/

namespace Sys2Proof.Machine

/-! ### Every offer that is taken has a step -/

/-- A legal command has a step in every state, but for a BLOCK, which has one between chunks (R93). -/
theorem exec_command_next {s : State} {cmd : BitVec 32} {p : BitVec 128} {i : Instr}
    (hi : decodeCommand cmd p = .ok i) (hblock : ∀ len q, i = .block len q → s.inChunk = false) :
    ∃ t, exec i s = .next t := by
  rcases decode_command_kind hi with rfl | rfl | ⟨ch, rfl⟩ | ⟨ch, en, rfl⟩ | rfl | ⟨len, q, rfl⟩
  · by_cases hopen : s.st = .opened
    · exact ⟨_, (startOpensOrIsRefused.2 s).1 hopen⟩
    · exact ⟨_, (startOpensOrIsRefused.2 s).2 hopen⟩
  · by_cases hpull : s.st = .reading ∧ s.inChunk = false
    · exact ⟨_, if_pos hpull⟩
    · exact ⟨_, if_neg hpull⟩
  · exact ⟨_, rfl⟩
  · exact ⟨_, rfl⟩
  · exact ⟨_, rfl⟩
  · have hlen : len.toNat ≤ 16 := decode_block_len hi
    have hbetween : s.inChunk = false := hblock len q rfl
    by_cases hr : s.st = .reading
    · exact ⟨_, execBlock_of_between_chunks hlen hr hbetween q⟩
    · exact ⟨_, (blockRefusedOrHeld len q s).2.1 hlen hbetween hr⟩

/-- A beat that ends the stream has a step where the source port pulls: it is processed, or it only ends a chunk that cancels
(R93). -/
theorem endStream_next_of_pulling {s : State} (h : s.Pulling) (f : State → State) : ∃ t, endStream f s = .next t := by
  obtain ⟨hr, hpull⟩ := h
  by_cases hc : s.cancelReq = false
  · exact ⟨_, (endStream_eq f s hr).1 hc⟩
  · exact ⟨_, (endStream_eq f s hr).2 (eq_true_of_ne_false hc) (hpull.resolve_right hc)⟩

/-- Every source beat has a step where the source port pulls (R91). -/
theorem exec_beat_next {s : State} (h : s.Pulling) (b : BitVec 11) : ∃ t, exec (decodeBeat b) s = .next t := by
  rcases decode_beat_kind b with ⟨last, d, hb⟩ | hb | ⟨cause, hb⟩ | ⟨cause, hb⟩ <;> rw [hb]
  · exact ⟨_, execData_of_pulling h last d⟩
  · exact endStream_next_of_pulling h fun u => { u with st := .closed }
  · exact endStream_next_of_pulling h (enterErrored cause)
  · exact endStream_next_of_pulling h (enterErrored cause)

/-- A transaction-level chunk is taken only between chunks with no cancellation (R91, R27). -/
theorem idle_of_nextOffer_chunk {s : State} {bytes : List Byte} {rest : List Offer}
    (h : s.nextOffer = some (.chunk bytes, rest)) : s.Idle := by
  obtain ⟨hr, hpull⟩ := pulling_of_nextOffer h rfl
  obtain ⟨⟨cw, sw, hc⟩, -⟩ := nextOffer_some h
  have hi : s.inChunk = false := by simpa using (Bool.and_eq_true_iff.1 hc).2
  exact ⟨hr, hi, hpull.resolve_left (Bool.eq_false_iff.1 hi)⟩

/-- The step that takes an offer answers a next state: what a port waits for is what the offer's meaning needs. -/
theorem step_next_of_nextOffer {s : State} {o : Offer} {rest : List Offer} (h : s.nextOffer = some (o, rest)) :
    ∃ t, step s = .next t := by
  cases o with
  | rst => exact ⟨_, step_of_nextOffer h⟩
  | command cmd p =>
    cases hd : decodeCommand cmd p with
    | error e => exact ⟨_, illegalCommandIsRefused.1 s cmd p rest e h hd⟩
    | ok i =>
      rw [stepRunsTheDecodedInstr.1 s cmd p rest i h hd]
      exact exec_command_next hd fun len q hblock => (block_of_nextOffer h (hblock ▸ hd)).1
  | beat b =>
    have hpull : s.Pulling := pulling_of_nextOffer h rfl
    rw [step_of_nextOffer_beat h]
    split
    · exact exec_beat_next (s := { s with offers := rest }) hpull b
    · exact exec_beat_next hpull b
  | chunk bytes =>
    have hidle : s.Idle := idle_of_nextOffer_chunk h
    exact ⟨_, (step_of_nextOffer h).trans (execChunk_of_idle (s := { s with offers := rest }) hidle bytes)⟩
  | consumer m => exact ⟨_, step_of_nextOffer h⟩

/-- Settles O42: a step with an offer to take answers a next state, and one without waits. -/
theorem stepStopsOnlyToWait : Obligations.StepStopsOnlyToWait := by
  intro s
  cases h : s.nextOffer with
  | none => exact .inr ⟨by rw [step, h], rfl⟩
  | some taken => exact .inl (step_next_of_nextOffer h)

/-! ### The token -/

/-- A step that is no reset leaves the token as it is, or is a CANCEL that sets it (R22, R165). -/
theorem Effect.token_kept_or_set {s t : State} {o : Offer} (e : Effect s o t) (ho : o ≠ .rst) :
    t.cancelReq = s.cancelReq ∨ (t.cancelReq = true ∧ ∃ p, o = .command 2 p) := by
  cases e with
  | reset => exact absurd rfl ho
  | cancelled cmd p _ h =>
    obtain rfl := cmd_of_decode_cancel h
    exact .inr ⟨rfl, p, rfl⟩
  | consumed => exact .inl rfl
  | illegal => exact .inl rfl
  | startRefused => exact .inl rfl
  | started => exact .inl rfl
  | snapshot => exact .inl rfl
  | range => exact .inl rfl
  | status => exact .inl rfl
  | blockRefused => exact .inl rfl
  | blockShort => exact .inl rfl
  | blockFull => exact .inl rfl
  | data => exact .inl rfl
  | closed => exact .inl rfl
  | errored => exact .inl rfl
  | endedByBeat => exact .inl rfl
  | chunk => exact .inl rfl

/-- Settles O45: no effect but a reset's writes the token or the fault bit other than to set it, and the effects that move `st`
start in OPEN or READING. -/
theorem onlyResetClears : Obligations.OnlyResetClears := by
  intro s t o hstep
  obtain ⟨e, ho⟩ := hstep.effect
  have hfault : s.progErr = true → t.progErr = true := fun hp =>
    (progErrRecordsRefusals.2 s t o hstep).2 (.inl hp)
  have hterminal : s.st.terminal = true → t.st = s.st := fun hterm => (e.keeps_terminal ho hterm).1
  rcases e.token_kept_or_set ho with hkept | ⟨hset, hcancel⟩
  · refine ⟨hkept.trans, hfault, hterminal, fun hclear hset => ?_⟩
    nomatch hset.symm.trans (hkept.trans hclear)
  · exact ⟨fun _ => hset, hfault, hterminal, fun _ _ => hcancel⟩

end Sys2Proof.Machine
end
